-- ==== Sys2Proof/Word.lean ====
section
/-! DEFINITION. The word types of the Ahmes CORE (00_scope.md R7, R9) and the plain data a Memory Bank is. -/

namespace Sys2Proof

/-- A memory cell, the accumulator, a branch target, a subcode: 8 bits (00_scope.md R7). -/
abbrev Byte := BitVec 8

/-- An opcode or an operand nibble: 4 bits (30_encoding.md R61). -/
abbrev Nibble := BitVec 4

/-- The program counter: 9 bits, because 256 stands for "past the end of memory" (10_state.md R23). -/
abbrev Pc := BitVec 9

/-- The contents of the Memory Bank (20_memory.md R40): address and byte pairs, addresses strictly
rising, no zero byte listed. A cell that is not listed holds 0 (20_memory.md R55, "unset cells = 0"). -/
abbrev Memory := List Host.Cell

end Sys2Proof
end

