-- ==== Sys2Proof/Config.lean ====
section
/-! DEFINITION. The configuration inputs of the core (00_scope.md R8, 44_engine.md R157). The spec leaves no
value free (93_implementation_defined.md: "No behaviour is left as any value"), so there is no
opaque constant here; the defaults stand in Decode.lean and Machine/Params.lean. -/

namespace Sys2Proof

/-- The instruction classes an opcode nibble selects (30_encoding.md R63). -/
inductive OpClass where
  | nop | sta | lda | add | or | and | not | sub
  | jmp | jn | jz | jp | extJmp | shift | hlt
  deriving DecidableEq, Repr

/-- All fifteen classes. -/
def OpClass.all : List OpClass :=
  [.nop, .sta, .lda, .add, .or, .and, .not, .sub,
   .jmp, .jn, .jz, .jp, .extJmp, .shift, .hlt]

/-- The parameter OPCODE_MAP: the nibbles the source does not fix (00_scope.md R8). JMP = 8 and
HLT = 15 are no part of it. -/
structure OpcodeMap where
  nop    : Nibble
  sta    : Nibble
  lda    : Nibble
  add    : Nibble
  or     : Nibble
  and    : Nibble
  not    : Nibble
  sub    : Nibble
  jn     : Nibble
  jz     : Nibble
  jp     : Nibble
  extJmp : Nibble
  shift  : Nibble
  deriving DecidableEq, Repr

/-- The opcode nibble of a class; JMP = 0x8 and HLT = 0xF are fixed by the source (30_encoding.md R63 (a)). -/
def OpcodeMap.nibble (m : OpcodeMap) : OpClass → Nibble
  | .nop    => m.nop
  | .sta    => m.sta
  | .lda    => m.lda
  | .add    => m.add
  | .or     => m.or
  | .and    => m.and
  | .not    => m.not
  | .sub    => m.sub
  | .jmp    => 0x8#4
  | .jn     => m.jn
  | .jz     => m.jz
  | .jp     => m.jp
  | .extJmp => m.extJmp
  | .shift  => m.shift
  | .hlt    => 0xF#4

/-- The four parameters of the machine (00_scope.md R8), plain data. -/
structure Config where
  /-- STEP_LIMIT, the step ceiling (44_engine.md R149). -/
  stepLimit : Nat
  /-- PC_WRAP, whether a sequential advance past 255 wraps to 0 (10_state.md R25). -/
  pcWrap    : Bool
  /-- OPCODE_MAP (30_encoding.md R63). -/
  opcodeMap : OpcodeMap
  /-- IMAGE, the memory contents at the start of a run (44_engine.md R156). -/
  image     : Memory
  deriving DecidableEq, Repr

end Sys2Proof
end

