-- ==== Sys2Proof/Syntax.lean ====
section
/-! DEFINITION. The instructions of the Ahmes CORE: one constructor for each row of spec/opcode_table.json.
Bits an encoding ignores (30_encoding.md R69) are no operand. -/

namespace Sys2Proof

/-- The instruction set. `a` is a data address 0 to 15 (30_encoding.md R64), `t` an absolute branch
target 0 to 255, `sub` a subcode byte (30_encoding.md R66). -/
inductive Instr where
  /-- NOP, no operation (41_alu.md R91). -/
  | nop
  /-- NOT, complement the accumulator (41_alu.md R98). -/
  | not
  /-- STA a, store the accumulator (41_alu.md R93). -/
  | sta (a : Nibble)
  /-- LDA a, load the accumulator (41_alu.md R92). -/
  | lda (a : Nibble)
  /-- ADD a (41_alu.md R94). -/
  | add (a : Nibble)
  /-- OR a (41_alu.md R96). -/
  | or (a : Nibble)
  /-- AND a (41_alu.md R97). -/
  | and (a : Nibble)
  /-- SUB a (41_alu.md R95). -/
  | sub (a : Nibble)
  /-- JMP t (43_branch.md R122). -/
  | jmp (t : Byte)
  /-- JN t (43_branch.md R123). -/
  | jn (t : Byte)
  /-- JZ t, the 2-byte short form (43_branch.md R125). -/
  | jz (t : Byte)
  /-- JP t (43_branch.md R124). -/
  | jp (t : Byte)
  /-- JV t, EXT_JMP subcode 0 (43_branch.md R127). -/
  | jv (t : Byte)
  /-- JNV t, EXT_JMP subcode 1 (43_branch.md R128). -/
  | jnv (t : Byte)
  /-- JZX t, EXT_JMP subcode 2 (43_branch.md R129). -/
  | jzx (t : Byte)
  /-- JNZ t, EXT_JMP subcode 3 (43_branch.md R130). -/
  | jnz (t : Byte)
  /-- JC t, EXT_JMP subcode 4 (43_branch.md R131). -/
  | jc (t : Byte)
  /-- JNC t, EXT_JMP subcode 5 (43_branch.md R132). -/
  | jnc (t : Byte)
  /-- JB t, EXT_JMP subcode 6 (43_branch.md R133). -/
  | jb (t : Byte)
  /-- JNB t, EXT_JMP subcode 7 (43_branch.md R134). -/
  | jnb (t : Byte)
  /-- EXT_JMP with a subcode of 8 to 255: never taken (43_branch.md R135). -/
  | extJmp (sub t : Byte)
  /-- SHR (42_shift_rotate.md R111). -/
  | shr
  /-- SHL (42_shift_rotate.md R112). -/
  | shl
  /-- ROR (42_shift_rotate.md R113). -/
  | ror
  /-- ROL (42_shift_rotate.md R114). -/
  | rol
  /-- HLT (44_engine.md R147). -/
  | hlt
  /-- The table's row for a first byte whose opcode nibble has no class: decoding it raises
  UnknownBranchOpcode (30_encoding.md R68). It is one byte as far as the fetch goes (R67). -/
  | unassigned
  deriving DecidableEq, Repr

end Sys2Proof
end

