-- ==== Sys2Proof/WellFormed.lean ====
section
/-! DEFINITION. Which instructions, memories and configurations the spec admits. -/

namespace Sys2Proof

/-- An instruction term stands for an encoding. Only one check is left to make, since the operand
types give the widths: the skipped extended branch has a subcode of 8 to 255 (43_branch.md R135). -/
def Instr.wf : Instr → Bool
  | .extJmp sc _ => decide (8 ≤ sc.toNat)
  | .nop | .not | .sta _ | .lda _ | .add _ | .or _ | .and _ | .sub _ => true
  | .jmp _ | .jn _ | .jz _ | .jp _ => true
  | .jv _ | .jnv _ | .jzx _ | .jnz _ | .jc _ | .jnc _ | .jb _ | .jnb _ => true
  | .shr | .shl | .ror | .rol | .hlt | .unassigned => true

/-- The canonical form of a memory: addresses strictly rising, no zero byte listed, and every
address inside the 256 cells (20_memory.md R40). -/
abbrev Memory.wf (m : Memory) : Prop :=
  m.Pairwise (fun x y => x.1 < y.1) ∧ ∀ c ∈ m, c.2 ≠ 0#8 ∧ c.1 < 256

/-- The constraints on OPCODE_MAP (30_encoding.md R63 (a) and (b)): fifteen distinct nibbles, JMP = 8 and
HLT = 15 among them. -/
def OpcodeMap.wf (m : OpcodeMap) : Bool :=
  decide (OpClass.all.map m.nibble).Nodup

/-- A configuration the spec admits: STEP_LIMIT at least 1 (92_eei_decisions.md D7), a legal OPCODE_MAP,
and an IMAGE in canonical form. -/
abbrev Config.wf (c : Config) : Prop :=
  1 ≤ c.stepLimit ∧ c.opcodeMap.wf = true ∧ c.image.wf

end Sys2Proof
end

