-- ==== Sys2Proof/Decode.lean ====
section
/-! DEFINITION. The decoder and the encoder (30_encoding.md R60 to R72), for any OPCODE_MAP. -/

namespace Sys2Proof

/-- The default OPCODE_MAP (30_encoding.md R63, 92_eei_decisions.md D1). UNVERIFIED, the spec's own decision, unsafe
for a program whose bytes use one of these nibbles: log entry 2. -/
def OpcodeMap.default : OpcodeMap where
  nop    := 0x0#4
  sta    := 0x1#4
  lda    := 0x2#4
  add    := 0x3#4
  or     := 0x4#4
  and    := 0x5#4
  not    := 0x6#4
  sub    := 0x7#4
  jn     := 0x9#4
  jz     := 0xA#4
  jp     := 0xB#4
  extJmp := 0xC#4
  shift  := 0xE#4

/-- Why a list of bytes holds no instruction. -/
inductive DecodeError where
  /-- There is no first byte. -/
  | noByte
  /-- A branch's trailing byte or bytes are missing (43_branch.md R137). -/
  | truncatedBranch
  deriving DecidableEq, Repr

/-- `b0[7:4]`, the opcode nibble (30_encoding.md R61). -/
def opcodeOf (b0 : Byte) : Nibble := b0.extractLsb' 4 4

/-- `b0[3:0]`, the operand nibble (30_encoding.md R61). -/
def operandOf (b0 : Byte) : Nibble := b0.extractLsb' 0 4

/-- `b0[1:0]`, the shift selector (30_encoding.md R65). -/
def selectorOf (b0 : Byte) : BitVec 2 := b0.extractLsb' 0 2

/-- OPCODE_MAP read backwards: the class of an opcode nibble, none for the nibble without one
(30_encoding.md R68, R72). -/
def OpcodeMap.classOf (m : OpcodeMap) (op : Nibble) : Option OpClass :=
  OpClass.all.find? (fun c => m.nibble c == op)

/-- The shift group's operation (30_encoding.md R65). -/
def decodeShift (sel : BitVec 2) : Instr :=
  match sel.toNat with
  | 0 => .shr
  | 1 => .shl
  | 2 => .ror
  | _ => .rol

/-- The extended branch a subcode byte selects; the whole byte is compared (30_encoding.md R66). -/
def decodeExtended (sub t : Byte) : Instr :=
  match sub.toNat with
  | 0 => .jv t
  | 1 => .jnv t
  | 2 => .jzx t
  | 3 => .jnz t
  | 4 => .jc t
  | 5 => .jnc t
  | 6 => .jb t
  | 7 => .jnb t
  | _ => .extJmp sub t

/-- A short-form branch takes its target from the next byte (30_encoding.md R64). -/
def decodeShortBranch (mk : Byte → Instr) : List Byte → Except DecodeError (Instr × List Byte)
  | t :: rest => .ok (mk t, rest)
  | []        => .error .truncatedBranch

/-- An extended branch takes its subcode and its target from the next two bytes (30_encoding.md R64). -/
def decodeExtendedBranch : List Byte → Except DecodeError (Instr × List Byte)
  | sub :: t :: rest => .ok (decodeExtended sub t, rest)
  | _                => .error .truncatedBranch

/-- The instruction at the head of a list of bytes and the bytes after it (30_encoding.md R72). A list that
ends before a branch's trailing bytes is the end of memory; an opcode nibble without a class is
met before any trailing byte is asked for (30_encoding.md R67, R68). -/
def decode (m : OpcodeMap) : List Byte → Except DecodeError (Instr × List Byte)
  | [] => .error .noByte
  | b0 :: rest =>
    match m.classOf (opcodeOf b0) with
    | some .nop    => .ok (.nop, rest)
    | some .sta    => .ok (.sta (operandOf b0), rest)
    | some .lda    => .ok (.lda (operandOf b0), rest)
    | some .add    => .ok (.add (operandOf b0), rest)
    | some .or     => .ok (.or (operandOf b0), rest)
    | some .and    => .ok (.and (operandOf b0), rest)
    | some .not    => .ok (.not, rest)
    | some .sub    => .ok (.sub (operandOf b0), rest)
    | some .jmp    => decodeShortBranch .jmp rest
    | some .jn     => decodeShortBranch .jn rest
    | some .jz     => decodeShortBranch .jz rest
    | some .jp     => decodeShortBranch .jp rest
    | some .extJmp => decodeExtendedBranch rest
    | some .shift  => .ok (decodeShift (selectorOf b0), rest)
    | some .hlt    => .ok (.hlt, rest)
    | none         => .ok (.unassigned, rest)

/-! ## The encoder, from the same tables -/

/-- The nibble OPCODE_MAP leaves over (30_encoding.md R63 (c)); a legal map leaves exactly one. -/
def OpcodeMap.unassignedNibble (m : OpcodeMap) : Nibble :=
  (((List.range 16).map (BitVec.ofNat 4)).find? (fun n => (m.classOf n).isNone)).getD 0xD#4

/-- A first byte from its two nibbles (30_encoding.md R61). -/
def firstByte (op lo : Nibble) : Byte := op ++ lo

/-- The length of an instruction in bytes (30_encoding.md R60). The unassigned opcode has no length of its
own (R67); one byte of it is fetched. -/
def Instr.length : Instr → Nat
  | .nop | .not | .sta _ | .lda _ | .add _ | .or _ | .and _ | .sub _ => 1
  | .shr | .shl | .ror | .rol | .hlt | .unassigned => 1
  | .jmp _ | .jn _ | .jz _ | .jp _ => 2
  | .jv _ | .jnv _ | .jzx _ | .jnz _ | .jc _ | .jnc _ | .jb _ | .jnb _ | .extJmp _ _ => 3

/-- The bytes of an instruction, ignored bits written as 0 (30_encoding.md R62, R73). -/
def encode (m : OpcodeMap) : Instr → List Byte
  | .nop          => [firstByte (m.nibble .nop) 0]
  | .not          => [firstByte (m.nibble .not) 0]
  | .sta a        => [firstByte (m.nibble .sta) a]
  | .lda a        => [firstByte (m.nibble .lda) a]
  | .add a        => [firstByte (m.nibble .add) a]
  | .or a         => [firstByte (m.nibble .or) a]
  | .and a        => [firstByte (m.nibble .and) a]
  | .sub a        => [firstByte (m.nibble .sub) a]
  | .jmp t        => [firstByte (m.nibble .jmp) 0, t]
  | .jn t         => [firstByte (m.nibble .jn) 0, t]
  | .jz t         => [firstByte (m.nibble .jz) 0, t]
  | .jp t         => [firstByte (m.nibble .jp) 0, t]
  | .jv t         => [firstByte (m.nibble .extJmp) 0, 0, t]
  | .jnv t        => [firstByte (m.nibble .extJmp) 0, 1, t]
  | .jzx t        => [firstByte (m.nibble .extJmp) 0, 2, t]
  | .jnz t        => [firstByte (m.nibble .extJmp) 0, 3, t]
  | .jc t         => [firstByte (m.nibble .extJmp) 0, 4, t]
  | .jnc t        => [firstByte (m.nibble .extJmp) 0, 5, t]
  | .jb t         => [firstByte (m.nibble .extJmp) 0, 6, t]
  | .jnb t        => [firstByte (m.nibble .extJmp) 0, 7, t]
  | .extJmp sub t => [firstByte (m.nibble .extJmp) 0, sub, t]
  | .shr          => [firstByte (m.nibble .shift) 0]
  | .shl          => [firstByte (m.nibble .shift) 1]
  | .ror          => [firstByte (m.nibble .shift) 2]
  | .rol          => [firstByte (m.nibble .shift) 3]
  | .hlt          => [firstByte (m.nibble .hlt) 0]
  | .unassigned   => [firstByte m.unassignedNibble 0]

/-! ## Words as spec/opcode_table.json numbers them -/

/-- The three bytes of an instruction given as the number `w` of `nbits` bits; bits from `nbits` up are 0.
A row of one byte, and the bytes after it, count up from bit 0 of byte 0. The table's eight rows
JV to JNB are numbered the other way: their 16-bit match reads byte 0 as its HIGH byte (the rows'
own note), so a two-byte word whose bits 15..12 are the nibble 0xC of EXT_JMP is split so. This is
the reading of the table, no behaviour of the machine: log entry 15. -/
def tableBytes (nbits w : Nat) : List Byte :=
  let v  := w % 2 ^ nbits
  let lo := BitVec.ofNat 8 v
  let hi := BitVec.ofNat 8 (v / 256)
  let b2 := BitVec.ofNat 8 (v / 65536)
  if 16 ≤ nbits ∧ opcodeOf hi = OpcodeMap.default.extJmp then [hi, lo, b2] else [lo, hi, b2]

/-- The instruction the decoder reads from a table word, under the default OPCODE_MAP. -/
def decodeTableWord (nbits w : Nat) : Option Instr :=
  match decode OpcodeMap.default (tableBytes nbits w) with
  | .ok (i, _) => some i
  | .error _   => none

end Sys2Proof
end

