-- ==== Sys2Proof/Machine/Params.lean ====
section
/-! DEFINITION. The values the spec gives the configuration inputs by default (00_scope.md R8). -/

namespace Sys2Proof

/-- STEP_LIMIT 200000, PC_WRAP false, the default OPCODE_MAP, IMAGE all zero (00_scope.md R8). Every rule of
the model reads the configuration from the state, so no claim over all states rests on these
values: log entries 1 and 2. -/
def Config.default : Config where
  stepLimit := 200000
  pcWrap    := false
  opcodeMap := OpcodeMap.default
  image     := []

end Sys2Proof
end

