-- ==== Sys2Proof/Machine/State.lean ====
section
/-! DEFINITION. The state of the core (10_state.md R20 to R39), its fault kinds, and the state after reset. -/

namespace Sys2Proof.Machine

/-- The three fault kinds (60_exceptions.md R170). Each is raised by one step of the engine, through
`State.raise`, as a NEXT state whose status is Faulted and whose fault record names kind and pc
(44_engine.md R142); no step answers the host's outcome `fault`. Safe: the run ends there as the
spec says, and no effect is lost. -/
inductive Fault where
  /-- Raised by the range check of a step whose pc is past 255 (60_exceptions.md R171). Safe. -/
  | pcOutOfRange
  /-- Raised by the trailing-byte check of a branch at the end of memory (60_exceptions.md R172). Safe. -/
  | truncatedBranch
  /-- Raised by the meaning of `Instr.unassigned`, an opcode nibble without a class
  (60_exceptions.md R173). Safe. -/
  | unknownBranchOpcode
  deriving DecidableEq, Repr

/-- What the model gives no step. No instruction has one on any path. -/
inductive Refusal where
  /-- An instruction without a meaning yet; no arm of `exec` raises it. Safe. -/
  | notModelled (mnemonic : String)
  /-- Raised by `step` where STEP_LIMIT is below 1, a value the spec refuses
  (92_eei_decisions.md D7). Safe: log entry 3. -/
  | stepLimitBelowOne
  /-- Raised by `step` where OPCODE_MAP breaks the constraints of 30_encoding.md R63. Safe: log entry 3. -/
  | opcodeMapIllFormed
  deriving DecidableEq, Repr

/-- The run status (10_state.md R32, 44_engine.md R140). -/
inductive Status where
  | running
  | halted
  | loopDetected
  | stepLimitReached
  | faulted (kind : Fault)
  deriving DecidableEq, Repr

/-- The fault record: the kind and the faulting pc (10_state.md R33). -/
structure FaultRecord where
  kind : Fault
  pc   : Pc
  deriving DecidableEq, Repr

/-- The five flags (10_state.md R27 to R31). -/
structure Flags where
  n : Bool
  z : Bool
  v : Bool
  c : Bool
  b : Bool
  deriving DecidableEq, Repr

/-- The operand an EVENT shows (44_engine.md R161). -/
inductive EventOperand where
  /-- The low nibble: basic instructions and HLT. -/
  | nibble (lo : Nibble)
  /-- The 2-bit selector: the shift group. -/
  | selector (sel : BitVec 2)
  /-- The target byte: short-form branches. -/
  | target (t : Byte)
  /-- The subcode byte and the target byte: EXT_JMP. -/
  | subcodeTarget (sub t : Byte)
  deriving DecidableEq, Repr

/-- One EVENT record (44_engine.md R161). -/
structure Event where
  /-- pc_pre, the pc at the start of the step. -/
  pcPre     : Byte
  /-- The first instruction byte. -/
  raw       : Byte
  opcode    : Nibble
  operand   : EventOperand
  postPc    : Pc
  postAc    : Byte
  /-- The flag vector {N, Z, V, C, B} (10_state.md R37). -/
  postFlags : BitVec 5
  deriving DecidableEq, Repr

/-- The whole core: the Processor State, the Memory Bank and the engine's bookkeeping
(10_state.md R20), its output stream of EVENTs, and its configuration inputs, which no step changes. -/
structure State where
  /-- Program counter, 0 to 256 (10_state.md R23). -/
  pc          : Pc
  /-- Accumulator (10_state.md R21). -/
  ac          : Byte
  /-- N, Z, V, C, B (10_state.md R27 to R31). -/
  flags       : Flags
  /-- The Memory Bank (20_memory.md R40). -/
  mem         : Memory
  /-- The run status (10_state.md R32). -/
  status      : Status
  /-- The fault record, empty until the run faults (10_state.md R33). -/
  faultRecord : Option FaultRecord
  /-- The visited set, one bit per address (10_state.md R34). -/
  visited     : BitVec 256
  /-- The step counter (10_state.md R35). -/
  steps       : Nat
  /-- The EVENTs emitted since RESET, oldest first (44_engine.md R161). An output: nothing reads it.
  DESIGN CHOICE, log entry 4. -/
  events      : List Event
  /-- The configuration inputs (44_engine.md R157). DESIGN CHOICE, log entry 1. -/
  cfg         : Config
  deriving DecidableEq, Repr

/-- The state RESET leaves under a configuration (10_state.md R38, 70_reset_and_hazards.md R190). -/
def State.resetWith (c : Config) : State where
  pc          := 0
  ac          := 0
  flags       := { n := false, z := false, v := false, c := false, b := false }
  mem         := c.image
  status      := .running
  faultRecord := none
  visited     := 0
  steps       := 0
  events      := []
  cfg         := c

/-- The machine right after reset, under the spec's default configuration (00_scope.md R8). -/
def State.reset : State := State.resetWith Config.default

end Sys2Proof.Machine
end

