-- ==== Sys2Proof/Machine/Ops.lean ====
section
/-! DEFINITION. The named operations over memory, registers and bookkeeping that the meanings and the engine share. -/

namespace Sys2Proof

/-- The byte a memory lists at an address; an unlisted cell holds 0 (20_memory.md R55). -/
def Memory.read : Memory → Nat → Byte
  | [], _ => 0#8
  | (a, v) :: m, k => if k = a then v else Memory.read m k

/-- A list of cells with one address listed at its place. -/
def Memory.insert : Memory → Nat → Byte → Memory
  | [], k, x => [(k, x)]
  | (a, v) :: m, k, x =>
    if k < a then (k, x) :: (a, v) :: m
    else if k = a then (k, x) :: m
    else (a, v) :: Memory.insert m k x

/-- A memory with one cell set, in canonical form again: storing 0 removes the entry. -/
def Memory.write (m : Memory) (k : Nat) (x : Byte) : Memory :=
  if x = 0#8 then m.filter (fun c => c.1 != k) else Memory.insert m k x

/-- A memory from the bytes of cells 0, 1, 2, …, what the loader owes the core (20_memory.md R55); bytes
past cell 255 are ignored. -/
def Memory.ofBytes (bytes : List Byte) : Memory :=
  ((bytes.take 256).zipIdx).foldl (fun m p => Memory.write m p.2 p.1) []

/-- Why the core refuses a configuration, if it does (92_eei_decisions.md D7, 30_encoding.md R63): log entry 3. -/
def Config.refusal? (c : Config) : Option Machine.Refusal :=
  if c.stepLimit = 0 then some .stepLimitBelowOne
  else if c.opcodeMap.wf then none
  else some .opcodeMapIllFormed

end Sys2Proof

namespace Sys2Proof.Machine

/-- MemRead(addr, 1) (20_memory.md R41). The address has 8 bits, so no access leaves the 256 cells. -/
def State.memRead (s : State) (addr : Byte) : Byte := s.mem.read addr.toNat

/-- MemWrite(addr, 1, v) (20_memory.md R41). -/
def State.memWrite (s : State) (addr : Byte) (v : Byte) : State :=
  { s with mem := s.mem.write addr.toNat v }

/-- `pc <- v` (10_state.md R24). -/
def State.setPc (s : State) (v : Pc) : State := { s with pc := v }

/-- `ac <- v` (10_state.md R21). -/
def State.setAc (s : State) (v : Byte) : State := { s with ac := v }

/-- A write of the flags (10_state.md R27 to R31). -/
def State.setFlags (s : State) (f : Flags) : State := { s with flags := f }

/-- SeqNext(n) (10_state.md R25). -/
def State.seqNext (s : State) (n : Nat) : Pc :=
  if s.cfg.pcWrap then BitVec.ofNat 9 ((s.pc.toNat + n) % 256) else BitVec.ofNat 9 (s.pc.toNat + n)

/-- `pc <- SeqNext(n)`. -/
def State.advance (s : State) (n : Nat) : State := s.setPc (s.seqNext n)

/-- `stop X`: the run ends in the status X (44_engine.md R140). -/
def State.stop (s : State) (x : Status) : State := { s with status := x }

/-- `raise Fault(k)`, the one way every fault is taken (44_engine.md R142, 60_exceptions.md R177): status
Faulted(k), fault record (k, pc), and nothing else. There is no return from it
(60_exceptions.md R178); only RESET leaves a terminal state. -/
def State.raise (s : State) (k : Fault) : State :=
  { s with status := .faulted k, faultRecord := some { kind := k, pc := s.pc } }

/-- Whether an address is in Visited (10_state.md R34). 256 never is (44_engine.md R148). -/
def State.visits (s : State) (addr : Nat) : Bool := s.visited.getLsbD addr

/-- `Visited := Visited ∪ {addr}` (44_engine.md R142). -/
def State.markVisited (s : State) (addr : Nat) : State :=
  { s with visited := s.visited ||| (1#256 <<< addr) }

/-- `Steps := Steps + 1` (44_engine.md R142). -/
def State.countStep (s : State) : State := { s with steps := s.steps + 1 }

/-- `emit Event(e)` (44_engine.md R142). -/
def State.emit (s : State) (e : Event) : State := { s with events := s.events ++ [e] }

end Sys2Proof.Machine
end

