-- ==== Sys2Proof/Machine/Flags.lean ====
section
/-! DEFINITION. The Flag Unit (40_flag_unit.md R80 to R86) and the readout vector of the flags (10_state.md R37). -/

namespace Sys2Proof.Machine

/-- The patch {N, Z, V, C} the Flag Unit returns (40_flag_unit.md R80). -/
structure FlagPatch where
  n : Bool
  z : Bool
  v : Bool
  c : Bool
  deriving DecidableEq, Repr

/-- UpdateFlags(raw), the update of ADD and SUB (40_flag_unit.md R80). A negative raw never sets C
(90_conflicts.md C1). -/
def updateFlags (raw : Int) : FlagPatch :=
  let masked : Byte := BitVec.ofInt 8 raw
  { n := masked.getLsbD 7
    z := masked == 0
    v := decide (raw > 127) || decide (raw < -128)
    c := decide (raw ≥ 0) && decide (raw / 256 % 2 = 1) }

/-- UpdateFlagsMasked(r), the update of LDA, OR, AND, NOT and the shifts (40_flag_unit.md R81,
90_conflicts.md C9). -/
def updateFlagsMasked (r : Byte) : FlagPatch :=
  { n := r.getLsbD 7, z := r == 0, v := false, c := false }

/-- Applying a patch writes N, Z, V and C and never B (40_flag_unit.md R83). -/
def Flags.apply (f : Flags) (p : FlagPatch) : Flags :=
  { f with n := p.n, z := p.z, v := p.v, c := p.c }

/-- The vector {N, Z, V, C, B}, N in bit 4 and B in bit 0 (10_state.md R37): log entry 12. -/
def Flags.vector (f : Flags) : BitVec 5 :=
  BitVec.ofBool f.n ++ BitVec.ofBool f.z ++ BitVec.ofBool f.v ++ BitVec.ofBool f.c ++ BitVec.ofBool f.b

/-- Write the masked raw result to ac and its raw-value patch to the flags (40_flag_unit.md R82). -/
def State.writeRaw (s : State) (raw : Int) : State :=
  (s.setAc (BitVec.ofInt 8 raw)).setFlags (s.flags.apply (updateFlags raw))

/-- Write an 8-bit result to ac and its masked-value patch to the flags (40_flag_unit.md R81). -/
def State.writeMasked (s : State) (r : Byte) : State :=
  (s.setAc r).setFlags (s.flags.apply (updateFlagsMasked r))

/-- `F.B <- b`, SUB only (40_flag_unit.md R83). -/
def State.setBorrow (s : State) (b : Bool) : State := s.setFlags { s.flags with b := b }

/-- `F.C <- c`, a shift's carry-out (42_shift_rotate.md R110). -/
def State.setCarry (s : State) (c : Bool) : State := s.setFlags { s.flags with c := c }

end Sys2Proof.Machine
end

