-- ==== Sys2Proof/Machine/Operands.lean ====
section
/-! DEFINITION. The operand forms (30_encoding.md R64): the data address, the memory operand, the branch target. -/

namespace Sys2Proof.Machine

/-- `a = zext_8(b0[3:0])`, a data address 0 to 15 (30_encoding.md R64). -/
def dataAddr (a : Nibble) : Byte := a.setWidth 8

/-- `MemRead(a, 1)`, the operand of LDA, ADD, SUB, OR and AND (20_memory.md R43). -/
def State.operand (s : State) (a : Nibble) : Byte := s.memRead (dataAddr a)

/-- A branch target as a pc value, 0 to 255 (30_encoding.md R64, 43_branch.md R136). -/
def targetPc (t : Byte) : Pc := t.setWidth 9

end Sys2Proof.Machine
end

