-- ==== Sys2Proof/Machine/Alu.lean ====
section
/-! DEFINITION. The ALU / Logic Unit: NOP, LDA, STA, ADD, SUB, OR, AND, NOT (41_alu.md R90 to R99). -/

namespace Sys2Proof.Machine

/-- NOP (41_alu.md R91). -/
def execNop (s : State) : Host.Outcome State Fault Refusal :=
  .next (s.advance 1)

/-- LDA a (41_alu.md R92). -/
def execLda (a : Nibble) (s : State) : Host.Outcome State Fault Refusal :=
  .next ((s.writeMasked (s.operand a)).advance 1)

/-- STA a (41_alu.md R93). -/
def execSta (a : Nibble) (s : State) : Host.Outcome State Fault Refusal :=
  .next ((s.memWrite (dataAddr a) s.ac).advance 1)

/-- ADD a (41_alu.md R94): the raw sum of two unsigned bytes. -/
def execAdd (a : Nibble) (s : State) : Host.Outcome State Fault Refusal :=
  let raw : Int := (s.ac.toNat : Int) + ((s.operand a).toNat : Int)
  .next ((s.writeRaw raw).advance 1)

/-- SUB a (41_alu.md R95): the raw difference of two unsigned bytes; B is its sign. -/
def execSub (a : Nibble) (s : State) : Host.Outcome State Fault Refusal :=
  let raw : Int := (s.ac.toNat : Int) - ((s.operand a).toNat : Int)
  .next (((s.writeRaw raw).setBorrow (decide (raw < 0))).advance 1)

/-- OR a (41_alu.md R96). -/
def execOr (a : Nibble) (s : State) : Host.Outcome State Fault Refusal :=
  .next ((s.writeMasked (s.ac ||| s.operand a)).advance 1)

/-- AND a (41_alu.md R97). -/
def execAnd (a : Nibble) (s : State) : Host.Outcome State Fault Refusal :=
  .next ((s.writeMasked (s.ac &&& s.operand a)).advance 1)

/-- NOT (41_alu.md R98). -/
def execNot (s : State) : Host.Outcome State Fault Refusal :=
  .next ((s.writeMasked (~~~ s.ac)).advance 1)

end Sys2Proof.Machine
end

