-- ==== Sys2Proof/Machine/Branch.lean ====
section
/-! DEFINITION. The Branch Resolver: JMP, JN, JP, JZ and the extended branches (43_branch.md R120 to R137).
The engine has checked the trailing bytes before a meaning runs (44_engine.md R145). -/

namespace Sys2Proof.Machine

/-- `if take then pc <- target else pc <- SeqNext(n)` (43_branch.md R121, R126). -/
def State.branchIf (s : State) (take : Bool) (t : Byte) (n : Nat) : State :=
  if take then s.setPc (targetPc t) else s.advance n

/-- JMP (43_branch.md R122). -/
def execJmp (t : Byte) (s : State) : Host.Outcome State Fault Refusal :=
  .next (s.branchIf true t 2)

/-- JN (43_branch.md R123). -/
def execJn (t : Byte) (s : State) : Host.Outcome State Fault Refusal :=
  .next (s.branchIf s.flags.n t 2)

/-- JP (43_branch.md R124). -/
def execJp (t : Byte) (s : State) : Host.Outcome State Fault Refusal :=
  .next (s.branchIf (!s.flags.n && !s.flags.z) t 2)

/-- JZ, the short form (43_branch.md R125). -/
def execJz (t : Byte) (s : State) : Host.Outcome State Fault Refusal :=
  .next (s.branchIf s.flags.z t 2)

/-- JV (43_branch.md R127). -/
def execJv (t : Byte) (s : State) : Host.Outcome State Fault Refusal :=
  .next (s.branchIf s.flags.v t 3)

/-- JNV (43_branch.md R128). -/
def execJnv (t : Byte) (s : State) : Host.Outcome State Fault Refusal :=
  .next (s.branchIf (!s.flags.v) t 3)

/-- JZX, the extended JZ (43_branch.md R129). -/
def execJzx (t : Byte) (s : State) : Host.Outcome State Fault Refusal :=
  .next (s.branchIf s.flags.z t 3)

/-- JNZ (43_branch.md R130). -/
def execJnz (t : Byte) (s : State) : Host.Outcome State Fault Refusal :=
  .next (s.branchIf (!s.flags.z) t 3)

/-- JC (43_branch.md R131). -/
def execJc (t : Byte) (s : State) : Host.Outcome State Fault Refusal :=
  .next (s.branchIf s.flags.c t 3)

/-- JNC (43_branch.md R132). -/
def execJnc (t : Byte) (s : State) : Host.Outcome State Fault Refusal :=
  .next (s.branchIf (!s.flags.c) t 3)

/-- JB (43_branch.md R133). -/
def execJb (t : Byte) (s : State) : Host.Outcome State Fault Refusal :=
  .next (s.branchIf s.flags.b t 3)

/-- JNB (43_branch.md R134). -/
def execJnb (t : Byte) (s : State) : Host.Outcome State Fault Refusal :=
  .next (s.branchIf (!s.flags.b) t 3)

/-- EXT_JMP with a subcode of 8 to 255: never taken, no error (43_branch.md R135). -/
def execExtJmp (_sub t : Byte) (s : State) : Host.Outcome State Fault Refusal :=
  .next (s.branchIf false t 3)

end Sys2Proof.Machine
end

