-- ==== Sys2Proof/Machine/Engine.lean ====
section
/-! DEFINITION. The Execution Engine around dispatch: range check, fetch and decode, HLT, the unassigned opcode,
the EVENT, loop detection and the step ceiling (44_engine.md R140 to R161). -/

namespace Sys2Proof.Machine

/-- HLT: `pc <- SeqNext(1)`, then `stop Halted` (44_engine.md R147). -/
def execHlt (s : State) : Host.Outcome State Fault Refusal :=
  .next ((s.advance 1).stop .halted)

/-- The opcode nibble without a class: `raise Fault(UnknownBranchOpcode)` (60_exceptions.md R173). -/
def execUnassigned (s : State) : Host.Outcome State Fault Refusal :=
  .next (s.raise .unknownBranchOpcode)

/-- The bytes at pc, pc + 1 and pc + 2 that lie inside memory (20_memory.md R42, 44_engine.md R145):
trailing bytes never wrap around to address 0, whatever PC_WRAP (92_eei_decisions.md D2). -/
def State.fetchWindow (s : State) : List Byte :=
  (List.range 3).filterMap fun k =>
    if s.pc.toNat + k < 256 then some (s.memRead (BitVec.ofNat 8 (s.pc.toNat + k))) else none

/-- Steps 1 to 3 of a step: the range check, the fetch, the decoding and the trailing-byte check
(44_engine.md R143 to R145). -/
def State.fetchDecode (s : State) : Except Fault Instr :=
  if 255 < s.pc.toNat then .error .pcOutOfRange
  else match decode s.cfg.opcodeMap s.fetchWindow with
    | .ok (i, _)              => .ok i
    | .error .truncatedBranch => .error .truncatedBranch
    | .error .noByte          => .error .pcOutOfRange

/-- The operand an EVENT shows for an instruction whose first byte is `raw` (44_engine.md R161). -/
def eventOperand (raw : Byte) : Instr → EventOperand
  | .nop | .not | .sta _ | .lda _ | .add _ | .or _ | .and _ | .sub _ => .nibble (operandOf raw)
  | .hlt | .unassigned => .nibble (operandOf raw)
  | .shr | .shl | .ror | .rol => .selector (selectorOf raw)
  | .jmp t | .jn t | .jz t | .jp t => .target t
  | .jv t  => .subcodeTarget 0 t
  | .jnv t => .subcodeTarget 1 t
  | .jzx t => .subcodeTarget 2 t
  | .jnz t => .subcodeTarget 3 t
  | .jc t  => .subcodeTarget 4 t
  | .jnc t => .subcodeTarget 5 t
  | .jb t  => .subcodeTarget 6 t
  | .jnb t => .subcodeTarget 7 t
  | .extJmp sub t => .subcodeTarget sub t

/-- The EVENT of a step that ran `i` from `s` to `t` (44_engine.md R161). -/
def stepEvent (s : State) (i : Instr) (t : State) : Event :=
  let raw := s.memRead (s.pc.setWidth 8)
  { pcPre     := s.pc.setWidth 8
    raw       := raw
    opcode    := opcodeOf raw
    operand   := eventOperand raw i
    postPc    := t.pc
    postAc    := t.ac
    postFlags := t.flags.vector }

/-- Step 7: count the step and compare with the ceiling (44_engine.md R149). -/
def State.stepCeiling (t : State) : State :=
  let u := t.countStep
  if u.cfg.stepLimit ≤ u.steps then u.stop .stepLimitReached else u

/-- Steps 6 and 7: record the start address `p`, then test the new pc (44_engine.md R148). -/
def State.loopCheck (t : State) (p : Pc) : State :=
  let u := t.markVisited p.toNat
  if u.visits u.pc.toNat then u.stop .loopDetected else u.stepCeiling

/-- What the engine does after the meaning of `i` took `s` to `t` (44_engine.md R142). A raised fault has
ended the step already, with no EVENT; a HLT ends it after its EVENT (step 5); any other
instruction goes through steps 6 and 7. -/
def retire (s : State) (i : Instr) (t : State) : State :=
  match t.status with
  | .faulted _ => t
  | .running   => (t.emit (stepEvent s i t)).loopCheck s.pc
  | .halted | .loopDetected | .stepLimitReached => t.emit (stepEvent s i t)

/-- Store an instruction's bytes at the pc and let the engine run: what the loader and RESET do for a
program (70_reset_and_hazards.md R190). Bytes past cell 255 are dropped. -/
def State.placeAtPc (s : State) (bytes : List Byte) : State :=
  (bytes.zipIdx.foldl
    (fun u p => if s.pc.toNat + p.2 < 256 then u.memWrite (BitVec.ofNat 8 (s.pc.toNat + p.2)) p.1 else u)
    s).stop .running

end Sys2Proof.Machine
end

