-- ==== Sys2Proof/Machine/Shift.lean ====
section
/-! DEFINITION. The Shift/Rotate Unit: SHR, SHL, ROR, ROL (42_shift_rotate.md R110 to R115). -/

namespace Sys2Proof.Machine

/-- What all four do with their result and carry-out (42_shift_rotate.md R110): the carry-out replaces
the C of the masked-value update. -/
def State.shiftResult (s : State) (r : Byte) (cout : Bool) : State :=
  ((s.writeMasked r).setCarry cout).advance 1

/-- The carry flag as a byte, 0 or 1: the carry-in of ROR and ROL (92_eei_decisions.md D9, log entry 10). -/
def State.carryIn (s : State) : Byte := (BitVec.ofBool s.flags.c).setWidth 8

/-- SHR (42_shift_rotate.md R111). -/
def execShr (s : State) : Host.Outcome State Fault Refusal :=
  .next (s.shiftResult (s.ac >>> 1) (s.ac.getLsbD 0))

/-- SHL (42_shift_rotate.md R112). -/
def execShl (s : State) : Host.Outcome State Fault Refusal :=
  .next (s.shiftResult (s.ac <<< 1) (s.ac.getLsbD 7))

/-- ROR, through the carry (42_shift_rotate.md R113). -/
def execRor (s : State) : Host.Outcome State Fault Refusal :=
  .next (s.shiftResult ((s.ac >>> 1) ||| (s.carryIn <<< 7)) (s.ac.getLsbD 0))

/-- ROL, through the carry (42_shift_rotate.md R114). -/
def execRol (s : State) : Host.Outcome State Fault Refusal :=
  .next (s.shiftResult ((s.ac <<< 1) ||| s.carryIn) (s.ac.getLsbD 7))

end Sys2Proof.Machine
end

