-- ==== Sys2Proof/Machine/Dispatch.lean ====
section
/-! DEFINITION. Dispatch (44_engine.md R146): one arm per instruction. -/

namespace Sys2Proof.Machine

def exec (i : Instr) (s : State) : Host.Outcome State Fault Refusal :=
  match i with
  -- 41_alu.md
  | .nop => Sys2Proof.Machine.execNop s
  | .not => Sys2Proof.Machine.execNot s
  | .sta a => Sys2Proof.Machine.execSta a s
  | .lda a => Sys2Proof.Machine.execLda a s
  | .add a => Sys2Proof.Machine.execAdd a s
  | .or a => Sys2Proof.Machine.execOr a s
  | .and a => Sys2Proof.Machine.execAnd a s
  | .sub a => Sys2Proof.Machine.execSub a s
  -- 43_branch.md, short form
  | .jmp t => Sys2Proof.Machine.execJmp t s
  | .jn t => Sys2Proof.Machine.execJn t s
  | .jz t => Sys2Proof.Machine.execJz t s
  | .jp t => Sys2Proof.Machine.execJp t s
  -- 43_branch.md, extended form
  | .jv t => Sys2Proof.Machine.execJv t s
  | .jnv t => Sys2Proof.Machine.execJnv t s
  | .jzx t => Sys2Proof.Machine.execJzx t s
  | .jnz t => Sys2Proof.Machine.execJnz t s
  | .jc t => Sys2Proof.Machine.execJc t s
  | .jnc t => Sys2Proof.Machine.execJnc t s
  | .jb t => Sys2Proof.Machine.execJb t s
  | .jnb t => Sys2Proof.Machine.execJnb t s
  | .extJmp sub t => Sys2Proof.Machine.execExtJmp sub t s
  -- 42_shift_rotate.md
  | .shr => Sys2Proof.Machine.execShr s
  | .shl => Sys2Proof.Machine.execShl s
  | .ror => Sys2Proof.Machine.execRor s
  | .rol => Sys2Proof.Machine.execRol s
  -- 44_engine.md
  | .hlt => Sys2Proof.Machine.execHlt s
  -- 60_exceptions.md
  | .unassigned => Sys2Proof.Machine.execUnassigned s

end Sys2Proof.Machine
end

