-- ==== Sys2Proof/Machine/Step.lean ====
section
/-! DEFINITION. One step of the engine (44_engine.md R142). -/

namespace Sys2Proof.Machine

/-- One STEP. A terminal state has no further step (44_engine.md R150). A configuration the spec does not
admit is refused. A fault of the fetch is raised; else the decoded instruction runs and the
engine ends the step. -/
def step (s : State) : Host.Outcome State Fault Refusal :=
  if s.status ≠ .running then .next s
  else match s.cfg.refusal? with
    | some r => .refused r
    | none =>
      match s.fetchDecode with
      | .error k => .next (s.raise k)
      | .ok i =>
        match exec i s with
        | .next t    => .next (retire s i t)
        | .fault k   => .fault k
        | .refused r => .refused r

/-- `s` with the instruction of a table word where the next step fetches: its bytes from the pc on, and
the status Running. It stands for the external loader: log entry 14. -/
def State.withFetchWord (s : State) (nbits w : Nat) : State :=
  s.placeAtPc (tableBytes nbits w)

end Sys2Proof.Machine
end

