-- ==== Sys2Proof/Machine/Interface.lean ====
section
/-! DEFINITION. The block boundary (44_engine.md R155 to R160): the control commands, the memory-image input, the
STATUS code and the run result. STEP is `step`; EVENT is the field `events`. -/

namespace Sys2Proof.Machine

/-- RESET, in any state, from the current IMAGE (44_engine.md R158, 70_reset_and_hazards.md R190). -/
def State.resetCommand (s : State) : State := State.resetWith s.cfg

/-- RUN: STEP until the status is terminal, which takes at most 257 steps (44_engine.md R152, R158); a
further STEP changes nothing (R150). -/
def runCommand (s : State) : Host.Outcome State Fault Refusal := Sys2Proof.core.run 257 s

/-- The memory-image input, accepted only while no run is Running (44_engine.md R156). -/
def State.loadImage (s : State) (image : Memory) : State :=
  if s.status = .running then s else { s with cfg := { s.cfg with image := image } }

/-- The STATUS output (44_engine.md R159). -/
def Status.code : Status → BitVec 3
  | .running                      => 0
  | .halted                       => 1
  | .loopDetected                 => 2
  | .stepLimitReached             => 3
  | .faulted .pcOutOfRange        => 4
  | .faulted .truncatedBranch     => 5
  | .faulted .unknownBranchOpcode => 6

/-- The run result but for its memory (44_engine.md R160). -/
structure RunResult where
  status : BitVec 3
  /-- For Faulted, the fault kind and the faulting pc. -/
  fault  : Option FaultRecord
  pc     : Pc
  ac     : Byte
  flags  : BitVec 5
  deriving DecidableEq, Repr

/-- The run result, valid once the status is terminal (44_engine.md R160). -/
def State.runResult (s : State) : Option RunResult :=
  if s.status = .running then none
  else some
    { status := s.status.code, fault := s.faultRecord, pc := s.pc, ac := s.ac, flags := s.flags.vector }

/-- The run result's read port on the final memory, valid once the status is terminal (44_engine.md R160). -/
def State.readPort (s : State) (n : Byte) : Option Byte :=
  if s.status = .running then none else some (s.memRead n)

end Sys2Proof.Machine
end

