-- ==== Sys2Proof/Safety.lean ====
section
/-! DEFINITION. What claims about the machine are stated in: safe runs, the invariant, frames. -/

namespace Sys2Proof.Machine

/-- A state of a run that has not faulted (60_exceptions.md R174: the other terminal states are no errors). -/
def State.Safe (s : State) : Prop := ∀ k, s.status ≠ .faulted k

/-- A STEP executes: the run is Running under a configuration the spec admits (44_engine.md R142). -/
def State.Ready (s : State) : Prop := s.status = .running ∧ s.cfg.wf

/-- SeqNext(n) as a number (10_state.md R25). -/
def State.seqNat (s : State) (n : Nat) : Nat :=
  if s.cfg.pcWrap then (s.pc.toNat + n) % 256 else s.pc.toNat + n

/-- Nothing but pc, ac and the flags differs: not memory, status, fault record, Visited, Steps, events or
configuration. -/
def OnlyProcessorState (s t : State) : Prop :=
  t = { s with pc := t.pc, ac := t.ac, flags := t.flags }

/-- Nothing but pc differs. -/
def OnlyPc (s t : State) : Prop := t = { s with pc := t.pc }

/-- Every cell reads as before. -/
def SameBytes (s t : State) : Prop := ∀ a : Byte, t.memRead a = s.memRead a

/-- The engine's bookkeeping, the output stream and the configuration are as before. -/
def SameEngine (s t : State) : Prop :=
  t.status = s.status ∧ t.faultRecord = s.faultRecord ∧ t.visited = s.visited ∧
  t.steps = s.steps ∧ t.events = s.events ∧ t.cfg = s.cfg

/-- The operand an EVENT of the step at pc shows, by the class of the opcode nibble, read from the bytes in
memory (44_engine.md R161): the low nibble, the selector, the target byte, or the subcode and target
bytes. -/
def State.operandShown (s : State) : OpClass → EventOperand
  | .nop | .sta | .lda | .add | .or | .and | .not | .sub | .hlt =>
    .nibble ((s.mem.read s.pc.toNat).extractLsb' 0 4)
  | .shift => .selector ((s.mem.read s.pc.toNat).extractLsb' 0 2)
  | .jmp | .jn | .jz | .jp => .target (s.mem.read (s.pc.toNat + 1))
  | .extJmp => .subcodeTarget (s.mem.read (s.pc.toNat + 1)) (s.mem.read (s.pc.toNat + 2))

/-- How many addresses are in Visited. -/
def State.visitedCount (s : State) : Nat := ((List.range 256).filter s.visits).length

/-- N and Z tell of the accumulator, or no flag-writing instruction has run since reset: every write of
ac goes with a write of N and Z from the same result (40_flag_unit.md R80, R81). -/
def State.FlagsTellAc (s : State) : Prop :=
  (s.flags.n = false ∧ s.flags.z = false ∧ s.ac = 0) ∨
  (s.flags.n = s.ac.getLsbD 7 ∧ s.flags.z = (s.ac == 0))

/-- The fault record goes with the status (10_state.md R33): empty until the run faults, then the kind and
the pc. -/
def State.RecordFits (s : State) : Prop :=
  match s.status with
  | .faulted k => s.faultRecord = some { kind := k, pc := s.pc }
  | .running | .halted | .loopDetected | .stepLimitReached => s.faultRecord = none

/-- While Running: the next instruction has not been executed yet (44_engine.md R148), the ceiling is not
reached (R149), and Steps counts the visited addresses (R152). -/
def State.RunFits (s : State) : Prop :=
  s.status = .running →
    s.visits s.pc.toNat = false ∧ s.steps < s.cfg.stepLimit ∧ s.steps = s.visitedCount

/-- What holds after reset and is kept by every step, whatever the program and the configuration. -/
structure State.Inv (s : State) : Prop where
  /-- The configuration is one the spec admits. -/
  cfg      : s.cfg.wf
  /-- Memory is in canonical form, inside 256 cells (20_memory.md R40). -/
  mem      : s.mem.wf
  /-- pc is 0 to 256 (10_state.md R23). -/
  pc       : s.pc.toNat ≤ 256
  /-- With PC_WRAP, pc stays in 0 to 255 (10_state.md R23). -/
  pcWrap   : s.cfg.pcWrap = true → s.pc.toNat ≤ 255
  flags    : s.FlagsTellAc
  record   : s.RecordFits
  run      : s.RunFits
  /-- Steps never exceeds 256 (44_engine.md R152 (c)). -/
  steps    : s.steps ≤ 256

end Sys2Proof.Machine
end

