-- ==== Sys2Proof/Certificates/Slice0/Obligations.lean ====
section
/-! DEFINITION. The statements for the provers. Each docstring names the rule or section of spec/ it formalises. -/

open Sys2Proof Sys2Proof.Machine

/-! ## Encoding -/

/-- One word of every format and of the illegal nibble, written out from the tables of 30_encoding.md
R62, R65, R66 under the default OPCODE_MAP (the spec's decision D1: log entry 2). -/
def Obligations.WordsOfTheEncodingTableDecode : Prop :=
  decode OpcodeMap.default [0b0000_0111#8] = .ok (.nop, []) ∧
  decode OpcodeMap.default [0b0001_1111#8] = .ok (.sta 15, []) ∧
  decode OpcodeMap.default [0b0011_0101#8] = .ok (.add 5, []) ∧
  decode OpcodeMap.default [0b1000_0000#8, 200#8] = .ok (.jmp 200, []) ∧
  decode OpcodeMap.default [0b1011_0011#8, 40#8] = .ok (.jp 40, []) ∧
  decode OpcodeMap.default [0b1100_0111#8, 2#8, 40#8] = .ok (.jzx 40, []) ∧
  decode OpcodeMap.default [0b1100_0000#8, 0x82#8, 40#8] = .ok (.extJmp 0x82 40, []) ∧
  decode OpcodeMap.default [0b1110_1001#8] = .ok (.shl, []) ∧
  decode OpcodeMap.default [0b1111_1001#8] = .ok (.hlt, []) ∧
  decode OpcodeMap.default [0b1101_1111#8] = .ok (.unassigned, [])

/-- 30_encoding.md sections 1 to 5: under every legal OPCODE_MAP, the bytes of a well-formed instruction,
whatever follows them, decode to that instruction and leave what follows. -/
def Obligations.DecodeInvertsEncode : Prop :=
  ∀ (m : OpcodeMap) (i : Instr) (rest : List Byte), m.wf = true → i.wf = true →
    decode m (encode m i ++ rest) = .ok (i, rest)

/-- 30_encoding.md sections 1 and 4 (R60, R67): what the decoder accepts is a well-formed instruction; it
takes exactly that instruction's length, 1, 2 or 3 bytes, off the front; and the encoder gives the
same opcode nibble back. -/
def Obligations.DecoderTakesTheLengthOfTheClass : Prop :=
  ∀ (m : OpcodeMap) (b0 : Byte) (bytes rest : List Byte) (i : Instr),
    m.wf = true → decode m (b0 :: bytes) = .ok (i, rest) →
      i.wf = true ∧ (b0 :: bytes).drop i.length = rest ∧
      (b0 :: bytes).length = i.length + rest.length ∧
      ((encode m i).head?.map opcodeOf) = some (opcodeOf b0)

/-- 30_encoding.md section 4, 92_eei_decisions.md D3: two first bytes with one opcode nibble decode alike,
unless the class has a data address (any difference counts) or is the shift group (only bits 1 and
0 count). That the low nibble of NOP, NOT, HLT and the branches is ignored is the spec's decision
D3 (log entry 5). -/
def Obligations.IgnoredBitsNeverMatter : Prop :=
  ∀ (m : OpcodeMap) (op lo lo' : Nibble) (rest : List Byte),
    (∀ c ∈ [OpClass.sta, .lda, .add, .or, .and, .sub], m.classOf op ≠ some c) →
    (m.classOf op = some .shift → lo.toNat % 4 = lo'.toNat % 4) →
    decode m (firstByte op lo :: rest) = decode m (firstByte op lo' :: rest)

/-- 30_encoding.md section 5, 44_engine.md section 2: a list that starts with a byte fails to decode exactly
where it is a short-form branch with no byte after the first, or an extended branch with fewer
than two, whatever the subcode; an opcode nibble without a class never fails so (decision D4: log
entry 6). -/
def Obligations.DecodingFailsExactlyOnTruncation : Prop :=
  ∀ (m : OpcodeMap) (b0 : Byte) (rest : List Byte) (e : DecodeError),
    decode m (b0 :: rest) = .error e ↔
      e = .truncatedBranch ∧
      ((m.classOf (opcodeOf b0) ∈ [some OpClass.jmp, some .jn, some .jz, some .jp] ∧ rest.length < 1) ∨
       (m.classOf (opcodeOf b0) = some .extJmp ∧ rest.length < 2))

/-- R65: the shift group's low two bits select the operation and bits 3 and 2 are ignored. -/
def Obligations.ShiftSelectorPicksTheOperation : Prop :=
  ∀ (m : OpcodeMap) (hi sel : BitVec 2) (rest : List Byte), m.wf = true →
    decode m (firstByte (m.nibble .shift) (hi ++ sel) :: rest) =
      .ok (if sel = 0 then .shr else if sel = 1 then .shl else if sel = 2 then .ror else .rol, rest)

/-- 30_encoding.md section 3 (R66): the whole subcode byte selects the condition; 8 to 255 name none. That it
does so for every low nibble `x` of the first byte is the spec's decision D3 (log entry 5). -/
def Obligations.SubcodeByteSelectsTheCondition : Prop :=
  ∀ (m : OpcodeMap) (x : Nibble) (sub t : Byte) (rest : List Byte), m.wf = true →
    decode m (firstByte (m.nibble .extJmp) x :: sub :: t :: rest) =
      .ok (if sub = 0 then .jv t else if sub = 1 then .jnv t else if sub = 2 then .jzx t
           else if sub = 3 then .jnz t else if sub = 4 then .jc t else if sub = 5 then .jnc t
           else if sub = 6 then .jb t else if sub = 7 then .jnb t else .extJmp sub t, rest)

/-! ## Reset and the invariant -/

/-- R141: a run starts Running with pc = 0, ac = 0, all flags false, over the memory the loader filled. -/
def Obligations.RunStartsWithFreshProcessorState : Prop :=
  ∀ (s : State) (a : Byte),
    (s.resetCommand).status = .running ∧ (s.resetCommand).pc.toNat = 0 ∧ (s.resetCommand).ac.toNat = 0 ∧
    (s.resetCommand).flags.n = false ∧ (s.resetCommand).flags.z = false ∧
    (s.resetCommand).flags.v = false ∧ (s.resetCommand).flags.c = false ∧
    (s.resetCommand).flags.b = false ∧
    (s.resetCommand).memRead a = Memory.read s.cfg.image a.toNat

/-- 10_state.md section 7, 70_reset_and_hazards.md section 1: RESET, in any state, empties Visited and the
fault record, sets Steps to 0 and keeps the configuration; and the reset state of the default
configuration reads 0 in every cell. That the EVENT stream starts empty is the model's choice (log
entry 4). -/
def Obligations.ResetClearsTheBookkeeping : Prop :=
  (∀ (s : State) (a : Nat),
    (s.resetCommand).visits a = false ∧ (s.resetCommand).faultRecord = none ∧
    (s.resetCommand).steps = 0 ∧ (s.resetCommand).events = [] ∧ (s.resetCommand).cfg = s.cfg) ∧
  ∀ a : Byte, State.reset.memRead a = 0

/-- The invariant holds at the reset state, and RESET gives it back under every configuration the spec
admits. -/
def Obligations.InvariantHoldsAtReset : Prop :=
  State.reset.Inv ∧ ∀ s : State, s.cfg.wf → s.resetCommand.Inv

/-- Every step keeps the invariant: configuration and memory well formed, pc in 0 to 256 (0 to 255 with
PC_WRAP), N and Z telling of ac, the fault record fitting the status, and, while Running, a next
instruction not executed yet, a ceiling not reached, Steps counting Visited. -/
def Obligations.StepKeepsTheInvariant : Prop :=
  ∀ s t : State, s.Inv → step s = .next t → t.Inv

/-! ## The step -/

/-- 44_engine.md section 2: where the bytes at the pc decode to an instruction, a step runs exactly that
instruction's meaning and then ends the step (`retire`: EVENT, HLT, loop detection, ceiling). -/
def Obligations.StepRunsTheDecodedInstruction : Prop :=
  ∀ (s t : State) (i : Instr) (rest : List Byte), s.Ready → s.pc.toNat ≤ 255 →
    decode s.cfg.opcodeMap s.fetchWindow = .ok (i, rest) → exec i s = .next t →
      i.wf = true ∧ step s = .next (retire s i t)

/-- R42: the fetch reads the bytes at pc, pc + 1 and pc + 2, from the same cells data instructions use, and
reaches all 256 cells. -/
def Obligations.FetchReadsTheBytesAtThePc : Prop :=
  ∀ (s : State), s.pc.toNat ≤ 255 →
    s.fetchWindow.length = min 3 (256 - s.pc.toNat) ∧
    ∀ (k : Nat) (a : Byte), k < 3 → a.toNat = s.pc.toNat + k → s.fetchWindow[k]? = some (s.memRead a)

/-- 44_engine.md section 4, decision D6 (log entry 8): after an instruction other than HLT (and other than
an illegal opcode) the start address joins Visited; if the new pc is then in Visited the run ends
LoopDetected, with the instruction's effects kept and Steps unchanged. -/
def Obligations.RevisitedAddressEndsTheRun : Prop :=
  ∀ (s t : State) (i : Instr), s.Ready → s.fetchDecode = .ok i → i ≠ .hlt → i ≠ .unassigned →
    exec i s = .next t → (s.visits t.pc.toNat = true ∨ t.pc = s.pc) →
      ∃ u, step s = .next u ∧ u.status = .loopDetected ∧ u.steps = s.steps ∧
        u.pc = t.pc ∧ u.ac = t.ac ∧ u.flags = t.flags ∧ u.mem = t.mem ∧
        u.faultRecord = s.faultRecord ∧ u.cfg = s.cfg ∧
        ∀ a : Nat, u.visits a = (s.visits a || a == s.pc.toNat)

/-- 44_engine.md section 4, decisions D7 and D8 (log entry 8): where the new pc is not in Visited, Steps goes
up by one and the run ends StepLimitReached exactly when Steps has reached STEP_LIMIT; else it goes
on. -/
def Obligations.StepCounterMeetsTheCeiling : Prop :=
  ∀ (s t : State) (i : Instr), s.Ready → s.fetchDecode = .ok i → i ≠ .hlt → i ≠ .unassigned →
    exec i s = .next t → s.visits t.pc.toNat = false → t.pc ≠ s.pc →
      ∃ u, step s = .next u ∧ u.steps = s.steps + 1 ∧
        u.status = (if s.cfg.stepLimit ≤ s.steps + 1 then .stepLimitReached else .running) ∧
        u.pc = t.pc ∧ u.ac = t.ac ∧ u.flags = t.flags ∧ u.mem = t.mem ∧
        u.faultRecord = s.faultRecord ∧ u.cfg = s.cfg ∧
        ∀ a : Nat, u.visits a = (s.visits a || a == s.pc.toNat)

/-- 44_engine.md section 4, 60_exceptions.md section 3: the one status a step of a Running machine ends in,
in the order PcOutOfRange, TruncatedBranch or UnknownBranchOpcode, Halted, LoopDetected,
StepLimitReached. -/
def Obligations.StopConditionsHaveAFixedPriority : Prop :=
  ∀ (s : State), s.Ready → ∃ u, step s = .next u ∧
    u.status =
      (if 255 < s.pc.toNat then .faulted .pcOutOfRange
       else match decode s.cfg.opcodeMap s.fetchWindow with
        | .error _ => .faulted .truncatedBranch
        | .ok (.unassigned, _) => .faulted .unknownBranchOpcode
        | .ok (.hlt, _) => .halted
        | .ok _ =>
          if s.visits u.pc.toNat = true ∨ u.pc = s.pc then .loopDetected
          else if s.cfg.stepLimit ≤ s.steps + 1 then .stepLimitReached
          else .running)

/-- 44_engine.md section 3, decision D8 (log entry 8): a step that fetches HLT ends Halted with the pc moved
past it, and neither Visited nor Steps sees it. -/
def Obligations.HaltStepEndsTheRun : Prop :=
  ∀ (s : State), s.Ready → s.fetchDecode = .ok .hlt →
    ∃ u, step s = .next u ∧ u.status = .halted ∧ u.pc.toNat = s.seqNat 1 ∧
      u.ac = s.ac ∧ u.flags = s.flags ∧ u.mem = s.mem ∧ u.visited = s.visited ∧ u.steps = s.steps ∧
      u.faultRecord = s.faultRecord ∧ u.cfg = s.cfg

/-- 44_engine.md section 5, decision D13 (log entry 4): a step that executes an instruction emits exactly one
EVENT with the step's pc, first byte, opcode nibble, the operand its class shows, and post-step pc,
ac and flags; a step that faults, or one in a terminal state (decision D14, log entry 9), emits
none. The packing of the flags is decision D12 (log entry 12). -/
def Obligations.ExecutedStepEmitsOneEvent : Prop :=
  ∀ (s u : State), step s = .next u →
    (s.status = .running → (∀ k, u.status ≠ .faulted k) →
      ∃ e, u.events = s.events ++ [e] ∧ e.pcPre.toNat = s.pc.toNat ∧
        e.raw = Memory.read s.mem s.pc.toNat ∧ e.opcode.toNat = e.raw.toNat / 16 ∧
        (∃ c, s.cfg.opcodeMap.classOf e.opcode = some c ∧ e.operand = s.operandShown c) ∧
        e.postPc = u.pc ∧ e.postAc = u.ac ∧
        e.postFlags.toNat =
          16 * u.flags.n.toNat + 8 * u.flags.z.toNat + 4 * u.flags.v.toNat + 2 * u.flags.c.toNat
            + u.flags.b.toNat) ∧
    ((s.status ≠ .running ∨ ∃ k, u.status = .faulted k) → u.events = s.events)

/-- 44_engine.md section 5 (the operand list of the EVENT), decision D13 (log entry 4): the record a step
appends shows as its operand the low nibble, the selector, the target byte, or the subcode and
target bytes, by the class of its opcode nibble. -/
def Obligations.EventShowsTheOperandOfTheClass : Prop :=
  ∀ s u : State, step s = .next u → s.status = .running → (∀ k, u.status ≠ .faulted k) →
    ∃ (e : Event) (c : OpClass), u.events = s.events ++ [e] ∧
      s.cfg.opcodeMap.nibble c = opcodeOf (Memory.read s.mem s.pc.toNat) ∧
      e.operand =
        (if c = .shift then .selector ((Memory.read s.mem s.pc.toNat).setWidth 2)
         else if c ∈ [OpClass.jmp, .jn, .jz, .jp] then .target (Memory.read s.mem (s.pc.toNat + 1))
         else if c = .extJmp then
           .subcodeTarget (Memory.read s.mem (s.pc.toNat + 1)) (Memory.read s.mem (s.pc.toNat + 2))
         else .nibble ((Memory.read s.mem s.pc.toNat).setWidth 4))

/-- R34: Visited is empty at the start of a run, each completed step adds the pc at which it started, and
nothing else enters it or ever leaves it. A step completes where it ends neither in a fault nor at
a HLT (44_engine.md R148). -/
def Obligations.VisitedGrowsByTheStartAddressOnly : Prop :=
  (∀ (s : State) (a : Nat), (s.resetCommand).visits a = false) ∧
  ∀ (s u : State) (a : Nat), step s = .next u →
    u.visits a = (s.visits a ||
      decide (s.status = .running ∧ a = s.pc.toNat ∧ u.status ≠ .halted ∧ ∀ k ∈
        [Fault.pcOutOfRange, .truncatedBranch, .unknownBranchOpcode], u.status ≠ .faulted k))

/-! ## Faults -/

/-- R171: PcOutOfRange is raised by a step whose pc is past 255, by no other step and by no instruction;
pc = 256 comes only from a sequential advance with PC_WRAP false, and the recorded pc is 256. -/
def Obligations.PcOutOfRangeIsRaisedPastTheEndOnly : Prop :=
  (∀ s : State, s.Ready → 255 < s.pc.toNat →
    ∃ u, step s = .next u ∧ u.status = .faulted .pcOutOfRange ∧
      u.faultRecord = some { kind := .pcOutOfRange, pc := s.pc }) ∧
  (∀ s u : State, s.Inv → s.status = .running → step s = .next u → u.status = .faulted .pcOutOfRange →
    s.pc.toNat = 256 ∧ s.cfg.pcWrap = false ∧
      u.faultRecord = some { kind := .pcOutOfRange, pc := 256#9 }) ∧
  (∀ (i : Instr) (s t : State), exec i s = .next t → s.status ≠ .faulted .pcOutOfRange →
    t.status ≠ .faulted .pcOutOfRange) ∧
  ∀ s u : State, s.Ready → s.pc.toNat ≤ 255 → step s = .next u → u.pc.toNat = 256 →
    s.cfg.pcWrap = false ∧ ∃ i, s.fetchDecode = .ok i ∧ s.pc.toNat + i.length = 256

/-- R172: a short-form branch at 255 and an extended branch at 254 or 255 raise TruncatedBranch whatever the
flags, the subcode and PC_WRAP; the recorded pc is the branch's address. -/
def Obligations.TruncatedBranchIsRaisedAtTheEndOfMemory : Prop :=
  ∀ s : State, s.Ready →
    ((s.pc.toNat = 255 ∧ (∃ c ∈ [OpClass.jmp, .jn, .jz, .jp],
        opcodeOf (s.memRead (s.pc.setWidth 8)) = s.cfg.opcodeMap.nibble c)) ∨
     ((s.pc.toNat = 254 ∨ s.pc.toNat = 255) ∧
        opcodeOf (s.memRead (s.pc.setWidth 8)) = s.cfg.opcodeMap.nibble .extJmp)) →
    ∃ u, step s = .next u ∧ u.status = .faulted .truncatedBranch ∧
      u.faultRecord = some { kind := .truncatedBranch, pc := s.pc }

/-- 60_exceptions.md section 1, 30_encoding.md section 4, decision D4 (log entry 6): an opcode nibble no class
has raises UnknownBranchOpcode at every address, 254 and 255 too, and the pc is recorded. -/
def Obligations.UnknownOpcodeIsRaisedAtEveryAddress : Prop :=
  ∀ s : State, s.Ready → s.pc.toNat ≤ 255 →
    (∀ c : OpClass, s.cfg.opcodeMap.nibble c ≠ opcodeOf (s.memRead (s.pc.setWidth 8))) →
    ∃ u, step s = .next u ∧ u.status = .faulted .unknownBranchOpcode ∧
      u.faultRecord = some { kind := .unknownBranchOpcode, pc := s.pc }

/-- 44_engine.md section 2, 60_exceptions.md section 4, decision D5 (log entry 7): a step that ends Faulted
changes only the status and the fault record. -/
def Obligations.FaultingStepChangesOnlyStatusAndRecord : Prop :=
  ∀ (s u : State) (k : Fault), s.status = .running → step s = .next u → u.status = .faulted k →
    u = { s with status := .faulted k, faultRecord := some { kind := k, pc := s.pc } }

/-- 44_engine.md sections 1 and 4, decision D14 (log entry 9): from a terminal state, any number of STEPs
changes nothing. -/
def Obligations.TerminalStatesAreFinal : Prop :=
  ∀ (n : Nat) (s : State), s.status ≠ .running → Sys2Proof.core.run n s = .next s

/-- 44_engine.md section 4 (the derived bound R152): from every state that meets the invariant, whatever the
program and the configuration, RUN ends in a terminal state, after at most 256 more EVENTs, that is
executed instructions. -/
def Obligations.EveryRunEndsWithin257Steps : Prop :=
  ∀ s : State, s.Inv → ∃ u, runCommand s = .next u ∧ u.status ≠ .running ∧ u.Inv ∧
    u.events.length ≤ s.events.length + 256

/-- 44_engine.md section 4 (R152 (b), derived): StepLimitReached needs STEP_LIMIT at most 256. -/
def Obligations.StepLimitIsReachedOnlyBelow257 : Prop :=
  ∀ s u : State, s.Inv → s.status = .running → step s = .next u → u.status = .stepLimitReached →
    s.cfg.stepLimit ≤ 256

/-! ## Whole-machine rules -/

/-- R44: a step changes a byte of memory only by a STA to that byte. -/
def Obligations.OnlyStaChangesMemory : Prop :=
  ∀ (s u : State) (x : Byte), step s = .next u → u.memRead x ≠ s.memRead x →
    ∃ a : Nibble, s.fetchDecode = .ok (.sta a) ∧ x.toNat = a.toNat ∧ u.memRead x = s.ac

/-- R43: data access reaches cells 0 to 15 only. An instruction run in two states that differ only in cells
16 to 255 gives the same pc, ac, flags and low cells in both, and changes no cell from 16 up. -/
def Obligations.DataAccessReachesCells0To15Only : Prop :=
  ∀ (i : Instr) (s t t' : State) (mem' : Memory),
    (∀ x : Byte, x.toNat < 16 → Memory.read mem' x.toNat = s.memRead x) →
    exec i s = .next t → exec i { s with mem := mem' } = .next t' →
      t'.pc = t.pc ∧ t'.ac = t.ac ∧ t'.flags = t.flags ∧ t'.status = t.status ∧
      (∀ x : Byte, x.toNat < 16 → t'.memRead x = t.memRead x) ∧
      ∀ x : Byte, 16 ≤ x.toNat → t.memRead x = s.memRead x

/-- 10_state.md section 4 (R31): only SUB writes B, NOP, STA, the branches and HLT write no flag at all, and B
is false after reset. -/
def Obligations.OnlySubWritesTheBorrowFlag : Prop :=
  (∀ (i : Instr) (s t : State), exec i s = .next t → (∀ a, i ≠ .sub a) → t.flags.b = s.flags.b) ∧
  (∀ (i : Instr) (s t : State), exec i s = .next t →
    i ∉ [Instr.not, .shr, .shl, .ror, .rol] →
    (∀ a, i ≠ .lda a ∧ i ≠ .add a ∧ i ≠ .sub a ∧ i ≠ .or a ∧ i ≠ .and a) → t.flags = s.flags) ∧
  (∀ s : State, (s.resetCommand).flags.b = false)

/-- 10_state.md section 4 (R29): V is set by no instruction but ADD and SUB. -/
def Obligations.OverflowIsSetByAddAndSubOnly : Prop :=
  ∀ (s u : State), step s = .next u → u.flags.v = true → s.flags.v = false →
    ∃ a, s.fetchDecode = .ok (.add a) ∨ s.fetchDecode = .ok (.sub a)

/-- 10_state.md section 5, 60_exceptions.md section 5: no instruction reads the bookkeeping, the EVENT stream
or a configuration input but PC_WRAP. Two states with the same Processor State, memory and PC_WRAP
give the same Processor State and memory. -/
def Obligations.InstructionsCannotReadTheBookkeeping : Prop :=
  ∀ (i : Instr) (s s' t t' : State),
    s'.pc = s.pc → s'.ac = s.ac → s'.flags = s.flags → s'.mem = s.mem → s'.cfg.pcWrap = s.cfg.pcWrap →
    exec i s = .next t → exec i s' = .next t' →
      t'.pc = t.pc ∧ t'.ac = t.ac ∧ t'.flags = t.flags ∧ t'.mem = t.mem

/-- 10_state.md section 1, 44_engine.md section 5: no instruction and no step changes the configuration. -/
def Obligations.ConfigurationNeverChanges : Prop :=
  (∀ (i : Instr) (s t : State), exec i s = .next t → t.cfg = s.cfg) ∧
  ∀ s u : State, step s = .next u → u.cfg = s.cfg

/-- 20_memory.md section 4 (R53): a STA is seen by the very next fetch. After a step that ran STA a, the
first byte fetched at address a, and any trailing byte there, is the stored accumulator. -/
def Obligations.StoreIsSeenByTheNextFetch : Prop :=
  ∀ (s u : State) (a : Nibble) (k : Nat), s.Ready → s.fetchDecode = .ok (.sta a) → step s = .next u →
    k < 3 → u.pc.toNat + k = a.toNat → u.fetchWindow[k]? = some s.ac

/-! ## Results: ALU / Logic Unit -/

/-- 41_alu.md section R91 (the ignored low nibble is decision D3: log entry 5): NOP moves pc by one and
changes nothing else. -/
def Obligations.NopOnlyAdvancesThePc : Prop :=
  (∀ (m : OpcodeMap) (x : Nibble) (rest : List Byte), m.wf = true →
    decode m (firstByte (m.nibble .nop) x :: rest) = .ok (.nop, rest)) ∧
  ∀ s : State, s.pc.toNat ≤ 255 →
    ∃ t, exec .nop s = .next t ∧ t.pc.toNat = s.seqNat 1 ∧ OnlyPc s t

/-- R92: LDA a. -/
def Obligations.LdaLoadsACellAndClearsVAndC : Prop :=
  (∀ (m : OpcodeMap) (a : Nibble) (rest : List Byte), m.wf = true →
    decode m (firstByte (m.nibble .lda) a :: rest) = .ok (.lda a, rest)) ∧
  ∀ (s : State) (a : Nibble), s.pc.toNat ≤ 255 →
    ∃ t, exec (.lda a) s = .next t ∧
      t.ac = Memory.read s.mem a.toNat ∧
      (t.flags.n = true ↔ 128 ≤ t.ac.toNat) ∧ (t.flags.z = true ↔ t.ac.toNat = 0) ∧
      t.flags.v = false ∧ t.flags.c = false ∧ t.flags.b = s.flags.b ∧
      t.pc.toNat = s.seqNat 1 ∧ OnlyProcessorState s t

/-- R93: STA a. The stored cell is `dataAddr a`, cell number a, 0 to 15; no flag and no other cell changes;
the next fetch sees the byte; and no other instruction writes memory. -/
def Obligations.StaStoresTheAccumulatorInOneCell : Prop :=
  (∀ (m : OpcodeMap) (a : Nibble) (rest : List Byte), m.wf = true →
    decode m (firstByte (m.nibble .sta) a :: rest) = .ok (.sta a, rest)) ∧
  ∀ (s : State) (a : Nibble), s.pc.toNat ≤ 255 →
    ∃ t, exec (.sta a) s = .next t ∧
      (dataAddr a).toNat = a.toNat ∧ t.memRead (dataAddr a) = s.ac ∧
      (∀ x : Byte, x ≠ dataAddr a → t.memRead x = s.memRead x) ∧
      (∀ k < 3, t.pc.toNat + k = a.toNat → t.fetchWindow[k]? = some s.ac) ∧
      t.pc.toNat = s.seqNat 1 ∧ t = { s with pc := t.pc, mem := t.mem } ∧
      ∀ (i : Instr) (u : State), (∀ b, i ≠ .sta b) → exec i s = .next u → u.mem = s.mem

/-- R94: ADD a, by the raw sum of the unsigned bytes. -/
def Obligations.AddWritesTheWrappedSumAndRawFlags : Prop :=
  (∀ (m : OpcodeMap) (a : Nibble) (rest : List Byte), m.wf = true →
    decode m (firstByte (m.nibble .add) a :: rest) = .ok (.add a, rest)) ∧
  ∀ (s : State) (a : Nibble) (raw : Nat), s.pc.toNat ≤ 255 →
    raw = s.ac.toNat + (Memory.read s.mem a.toNat).toNat →
    ∃ t, exec (.add a) s = .next t ∧
      t.ac.toNat = raw % 256 ∧
      (t.flags.n = true ↔ 128 ≤ raw % 256) ∧ (t.flags.z = true ↔ raw % 256 = 0) ∧
      (t.flags.v = true ↔ 127 < raw) ∧ (t.flags.c = true ↔ 256 ≤ raw) ∧ t.flags.b = s.flags.b ∧
      t.pc.toNat = s.seqNat 1 ∧ OnlyProcessorState s t

/-- R95: SUB a, by the raw signed difference; C is always cleared, B is the sign of the difference. -/
def Obligations.SubWritesTheWrappedDifferenceAndBorrow : Prop :=
  (∀ (m : OpcodeMap) (a : Nibble) (rest : List Byte), m.wf = true →
    decode m (firstByte (m.nibble .sub) a :: rest) = .ok (.sub a, rest)) ∧
  ∀ (s : State) (a : Nibble) (raw : Int), s.pc.toNat ≤ 255 →
    raw = (s.ac.toNat : Int) - ((Memory.read s.mem a.toNat).toNat : Int) →
    ∃ t, exec (.sub a) s = .next t ∧
      (t.ac.toNat : Int) = raw % 256 ∧
      (t.flags.n = true ↔ 128 ≤ raw % 256) ∧ (t.flags.z = true ↔ raw % 256 = 0) ∧
      (t.flags.v = true ↔ raw > 127 ∨ raw < -128) ∧ t.flags.c = false ∧
      (t.flags.b = true ↔ raw < 0) ∧
      t.pc.toNat = s.seqNat 1 ∧ OnlyProcessorState s t

/-- R96: OR a, bit by bit. -/
def Obligations.OrIsBitwiseAndClearsVAndC : Prop :=
  (∀ (m : OpcodeMap) (a : Nibble) (rest : List Byte), m.wf = true →
    decode m (firstByte (m.nibble .or) a :: rest) = .ok (.or a, rest)) ∧
  ∀ (s : State) (a : Nibble), s.pc.toNat ≤ 255 →
    ∃ t, exec (.or a) s = .next t ∧
      (∀ k : Nat, t.ac.getLsbD k = (s.ac.getLsbD k || (Memory.read s.mem a.toNat).getLsbD k)) ∧
      (t.flags.n = true ↔ 128 ≤ t.ac.toNat) ∧ (t.flags.z = true ↔ t.ac.toNat = 0) ∧
      t.flags.v = false ∧ t.flags.c = false ∧ t.flags.b = s.flags.b ∧
      t.pc.toNat = s.seqNat 1 ∧ OnlyProcessorState s t

/-- R97: AND a, bit by bit. -/
def Obligations.AndIsBitwiseAndClearsVAndC : Prop :=
  (∀ (m : OpcodeMap) (a : Nibble) (rest : List Byte), m.wf = true →
    decode m (firstByte (m.nibble .and) a :: rest) = .ok (.and a, rest)) ∧
  ∀ (s : State) (a : Nibble), s.pc.toNat ≤ 255 →
    ∃ t, exec (.and a) s = .next t ∧
      (∀ k : Nat, t.ac.getLsbD k = (s.ac.getLsbD k && (Memory.read s.mem a.toNat).getLsbD k)) ∧
      (t.flags.n = true ↔ 128 ≤ t.ac.toNat) ∧ (t.flags.z = true ↔ t.ac.toNat = 0) ∧
      t.flags.v = false ∧ t.flags.c = false ∧ t.flags.b = s.flags.b ∧
      t.pc.toNat = s.seqNat 1 ∧ OnlyProcessorState s t

/-- 41_alu.md section R98 (the ignored low nibble is decision D3: log entry 5): NOT. -/
def Obligations.NotComplementsTheAccumulator : Prop :=
  (∀ (m : OpcodeMap) (x : Nibble) (rest : List Byte), m.wf = true →
    decode m (firstByte (m.nibble .not) x :: rest) = .ok (.not, rest)) ∧
  ∀ s : State, s.pc.toNat ≤ 255 →
    ∃ t, exec .not s = .next t ∧
      t.ac.toNat = 255 - s.ac.toNat ∧
      (t.flags.n = true ↔ 128 ≤ t.ac.toNat) ∧ (t.flags.z = true ↔ t.ac.toNat = 0) ∧
      t.flags.v = false ∧ t.flags.c = false ∧ t.flags.b = s.flags.b ∧
      t.pc.toNat = s.seqNat 1 ∧ OnlyProcessorState s t

/-! ## Results: Shift/Rotate Unit -/

/-- R111: SHR, with a 0 entering bit 7 and bit 0 going to C. -/
def Obligations.ShrHalvesTheAccumulator : Prop :=
  (∀ (m : OpcodeMap) (y : BitVec 2) (rest : List Byte), m.wf = true →
    decode m (firstByte (m.nibble .shift) (y ++ 0#2) :: rest) = .ok (.shr, rest)) ∧
  ∀ s : State, s.pc.toNat ≤ 255 →
    ∃ t, exec .shr s = .next t ∧
      t.ac.toNat = s.ac.toNat / 2 ∧
      t.flags.n = false ∧ (t.flags.z = true ↔ s.ac.toNat ≤ 1) ∧ t.flags.v = false ∧
      (t.flags.c = true ↔ s.ac.toNat % 2 = 1) ∧ t.flags.b = s.flags.b ∧
      t.pc.toNat = s.seqNat 1 ∧ OnlyProcessorState s t

/-- R112: SHL, with a 0 entering bit 0 and bit 7 going to C. -/
def Obligations.ShlDoublesTheAccumulator : Prop :=
  (∀ (m : OpcodeMap) (y : BitVec 2) (rest : List Byte), m.wf = true →
    decode m (firstByte (m.nibble .shift) (y ++ 1#2) :: rest) = .ok (.shl, rest)) ∧
  ∀ s : State, s.pc.toNat ≤ 255 →
    ∃ t, exec .shl s = .next t ∧
      t.ac.toNat = 2 * s.ac.toNat % 256 ∧
      (t.flags.n = true ↔ 64 ≤ s.ac.toNat % 128) ∧ (t.flags.z = true ↔ s.ac.toNat % 128 = 0) ∧
      t.flags.v = false ∧ (t.flags.c = true ↔ 128 ≤ s.ac.toNat) ∧ t.flags.b = s.flags.b ∧
      t.pc.toNat = s.seqNat 1 ∧ OnlyProcessorState s t

/-- R113: ROR through the carry, with the old C (92_eei_decisions.md D9, which R110 names: log entry 10)
entering bit 7. -/
def Obligations.RorRotatesRightThroughTheCarry : Prop :=
  (∀ (m : OpcodeMap) (y : BitVec 2) (rest : List Byte), m.wf = true →
    decode m (firstByte (m.nibble .shift) (y ++ 2#2) :: rest) = .ok (.ror, rest)) ∧
  ∀ s : State, s.pc.toNat ≤ 255 →
    ∃ t, exec .ror s = .next t ∧
      t.ac.toNat = s.ac.toNat / 2 + 128 * s.flags.c.toNat ∧
      t.flags.n = s.flags.c ∧ (t.flags.z = true ↔ s.ac.toNat ≤ 1 ∧ s.flags.c = false) ∧
      t.flags.v = false ∧ (t.flags.c = true ↔ s.ac.toNat % 2 = 1) ∧ t.flags.b = s.flags.b ∧
      t.pc.toNat = s.seqNat 1 ∧ OnlyProcessorState s t

/-- R114: ROL through the carry, with the old C (92_eei_decisions.md D9, which R110 names: log entry 10)
entering bit 0. -/
def Obligations.RolRotatesLeftThroughTheCarry : Prop :=
  (∀ (m : OpcodeMap) (y : BitVec 2) (rest : List Byte), m.wf = true →
    decode m (firstByte (m.nibble .shift) (y ++ 3#2) :: rest) = .ok (.rol, rest)) ∧
  ∀ s : State, s.pc.toNat ≤ 255 →
    ∃ t, exec .rol s = .next t ∧
      t.ac.toNat = 2 * s.ac.toNat % 256 + s.flags.c.toNat ∧
      (t.flags.n = true ↔ 64 ≤ s.ac.toNat % 128) ∧
      (t.flags.z = true ↔ s.ac.toNat % 128 = 0 ∧ s.flags.c = false) ∧
      t.flags.v = false ∧ (t.flags.c = true ↔ 128 ≤ s.ac.toNat) ∧ t.flags.b = s.flags.b ∧
      t.pc.toNat = s.seqNat 1 ∧ OnlyProcessorState s t

/-! ## Results: Branch Resolver -/

/-- 43_branch.md section 2 (R122): JMP t loads pc with the target byte and writes nothing else; a JMP at 255
faults TruncatedBranch; a JMP to its own address or to one already executed ends the run
LoopDetected there. That every low nibble decodes so is the spec's decision D3 (log entry 5); that a
jump to its own address is detected in its own step is decision D6 (log entry 8); that the fault
changes nothing else, whatever PC_WRAP, is D5 and D2 (log entries 7 and 1). -/
def Obligations.JmpLoadsThePc : Prop :=
  (∀ (m : OpcodeMap) (x : Nibble) (t : Byte) (rest : List Byte), m.wf = true →
    decode m (firstByte 8 x :: t :: rest) = .ok (.jmp t, rest)) ∧
  (∀ (s : State) (t : Byte), ∃ u, exec (.jmp t) s = .next u ∧ u.pc.toNat = t.toNat ∧ OnlyPc s u) ∧
  (∀ s : State, s.Ready → s.pc.toNat = 255 → opcodeOf (s.memRead 255#8) = 8#4 →
    step s = .next { s with status := .faulted .truncatedBranch,
                            faultRecord := some { kind := .truncatedBranch, pc := s.pc } }) ∧
  ∀ (s : State) (t : Byte), s.Ready → s.fetchDecode = .ok (.jmp t) →
    (s.visits t.toNat = true ∨ t.toNat = s.pc.toNat) →
    ∃ u, step s = .next u ∧ u.status = .loopDetected ∧ u.pc.toNat = t.toNat

/-- 43_branch.md section 2 (R123, R124, R125): JN, JP and the short JZ, taken exactly when N, neither N nor Z,
or Z is set; at 255 the step faults TruncatedBranch, taken or not, and never reaches the meaning.
That every low nibble decodes so is the spec's decision D3 (log entry 5); that the fault changes
nothing else, whatever PC_WRAP, is D5 and D2 (log entries 7 and 1). -/
def Obligations.ShortBranchesFollowTheirCondition : Prop :=
  (∀ (m : OpcodeMap) (x : Nibble) (t : Byte) (rest : List Byte), m.wf = true →
    decode m (firstByte (m.nibble .jn) x :: t :: rest) = .ok (.jn t, rest) ∧
    decode m (firstByte (m.nibble .jp) x :: t :: rest) = .ok (.jp t, rest) ∧
    decode m (firstByte (m.nibble .jz) x :: t :: rest) = .ok (.jz t, rest)) ∧
  (∀ s : State, s.Ready → s.pc.toNat = 255 →
    opcodeOf (s.memRead 255#8) ∈ [OpClass.jn, .jp, .jz].map s.cfg.opcodeMap.nibble →
    step s = .next { s with status := .faulted .truncatedBranch,
                            faultRecord := some { kind := .truncatedBranch, pc := s.pc } }) ∧
  ∀ (s : State) (t : Byte), s.pc.toNat ≤ 255 →
    (∃ u, exec (.jn t) s = .next u ∧ OnlyPc s u ∧
      u.pc.toNat = if s.flags.n = true then t.toNat else s.seqNat 2) ∧
    (∃ u, exec (.jp t) s = .next u ∧ OnlyPc s u ∧
      u.pc.toNat = if s.flags.n = false ∧ s.flags.z = false then t.toNat else s.seqNat 2) ∧
    (∃ u, exec (.jz t) s = .next u ∧ OnlyPc s u ∧
      u.pc.toNat = if s.flags.z = true then t.toNat else s.seqNat 2)

/-- 43_branch.md section 3 (R127 to R134): the eight extended branches, taken exactly when their flag is set
(even subcodes) or clear (odd subcodes); else pc moves by three; at 254 and 255 the step faults
TruncatedBranch, taken or not, and never reaches the meaning. That every low nibble decodes so is
the spec's decision D3 (log entry 5); that the fault changes nothing else, whatever PC_WRAP, is D5
and D2 (log entries 7 and 1). -/
def Obligations.ExtendedBranchesFollowTheirSubcode : Prop :=
  (∀ (m : OpcodeMap) (x : Nibble) (t : Byte) (rest : List Byte), m.wf = true →
    decode m (firstByte (m.nibble .extJmp) x :: 0 :: t :: rest) = .ok (.jv t, rest) ∧
    decode m (firstByte (m.nibble .extJmp) x :: 1 :: t :: rest) = .ok (.jnv t, rest) ∧
    decode m (firstByte (m.nibble .extJmp) x :: 2 :: t :: rest) = .ok (.jzx t, rest) ∧
    decode m (firstByte (m.nibble .extJmp) x :: 3 :: t :: rest) = .ok (.jnz t, rest) ∧
    decode m (firstByte (m.nibble .extJmp) x :: 4 :: t :: rest) = .ok (.jc t, rest) ∧
    decode m (firstByte (m.nibble .extJmp) x :: 5 :: t :: rest) = .ok (.jnc t, rest) ∧
    decode m (firstByte (m.nibble .extJmp) x :: 6 :: t :: rest) = .ok (.jb t, rest) ∧
    decode m (firstByte (m.nibble .extJmp) x :: 7 :: t :: rest) = .ok (.jnb t, rest)) ∧
  (∀ s : State, s.Ready → (s.pc.toNat = 254 ∨ s.pc.toNat = 255) →
    opcodeOf (s.memRead (s.pc.setWidth 8)) = s.cfg.opcodeMap.nibble .extJmp →
    step s = .next { s with status := .faulted .truncatedBranch,
                            faultRecord := some { kind := .truncatedBranch, pc := s.pc } }) ∧
  ∀ (s : State) (t : Byte), s.pc.toNat ≤ 255 →
    ∀ p ∈ [(Instr.jv t, s.flags.v), (.jnv t, !s.flags.v), (.jzx t, s.flags.z), (.jnz t, !s.flags.z),
           (.jc t, s.flags.c), (.jnc t, !s.flags.c), (.jb t, s.flags.b), (.jnb t, !s.flags.b)],
      ∃ u, exec p.1 s = .next u ∧ OnlyPc s u ∧ u.pc.toNat = if p.2 = true then t.toNat else s.seqNat 3

/-- 43_branch.md section 3 (R135): EXT_JMP with a subcode of 8 to 255 is never taken and is no error, whatever
the flags; it faults at 254 with that subcode in the last cell, as at 255, where no subcode is left
to read. That every low nibble decodes so is the spec's decision D3 (log entry 5); that the fault
changes nothing else, whatever PC_WRAP, is D5 and D2 (log entries 7 and 1). -/
def Obligations.OutOfRangeSubcodeIsSkipped : Prop :=
  (∀ (m : OpcodeMap) (x : Nibble) (sub t : Byte) (rest : List Byte), m.wf = true → 8 ≤ sub.toNat →
    decode m (firstByte (m.nibble .extJmp) x :: sub :: t :: rest) = .ok (.extJmp sub t, rest)) ∧
  (∀ s : State, s.Ready →
    ((s.pc.toNat = 254 ∧ 8 ≤ (s.memRead 255#8).toNat) ∨ s.pc.toNat = 255) →
    opcodeOf (s.memRead (s.pc.setWidth 8)) = s.cfg.opcodeMap.nibble .extJmp →
    step s = .next { s with status := .faulted .truncatedBranch,
                            faultRecord := some { kind := .truncatedBranch, pc := s.pc } }) ∧
  ∀ (s : State) (sub t : Byte), 8 ≤ sub.toNat → s.pc.toNat ≤ 255 →
    ∃ u, exec (.extJmp sub t) s = .next u ∧ u.pc.toNat = s.seqNat 3 ∧ OnlyPc s u

/-! ## Results: HLT and the illegal opcode -/

/-- 44_engine.md section 3 (the ignored low nibble is decision D3: log entry 5): HLT moves pc by one and sets
the status Halted; nothing else changes. -/
def Obligations.HltAdvancesThenHalts : Prop :=
  (∀ (m : OpcodeMap) (x : Nibble) (rest : List Byte), m.wf = true →
    decode m (firstByte 15 x :: rest) = .ok (.hlt, rest)) ∧
  ∀ s : State, s.pc.toNat ≤ 255 →
    ∃ t, exec .hlt s = .next t ∧ t.pc.toNat = s.seqNat 1 ∧ t.status = .halted ∧
      t = { s with pc := t.pc, status := t.status }

/-- 60_exceptions.md section 1, 30_encoding.md section 4, decisions D4 and D5 (log entries 6 and 7): the
illegal opcode's own effect is to raise UnknownBranchOpcode at its pc, and nothing else. -/
def Obligations.UnassignedOpcodeRaisesItsFault : Prop :=
  (∀ (m : OpcodeMap) (op x : Nibble) (rest : List Byte), (∀ c : OpClass, m.nibble c ≠ op) →
    decode m (firstByte op x :: rest) = .ok (.unassigned, rest)) ∧
  ∀ s : State, ∃ t, exec .unassigned s = .next t ∧
    t.status = .faulted .unknownBranchOpcode ∧
    t.faultRecord = some { kind := .unknownBranchOpcode, pc := s.pc } ∧
    t = { s with status := t.status, faultRecord := t.faultRecord }

/-! ## Frames -/

/-- 41_alu.md, 42_shift_rotate.md: the instructions that work on registers alone (NOP, LDA, ADD, SUB, OR,
AND, NOT, SHR, SHL, ROR, ROL) change no byte of memory and none of the bookkeeping; NOP changes
neither ac nor a flag; only SUB changes B. -/
def Obligations.RegisterInstructionsKeepTheirFrame : Prop :=
  ∀ (s t : State) (a : Nibble),
    ∀ i ∈ [Instr.nop, .lda a, .add a, .sub a, .or a, .and a, .not, .shr, .shl, .ror, .rol],
      exec i s = .next t →
        SameBytes s t ∧ SameEngine s t ∧ (i = .nop → t.ac = s.ac ∧ t.flags = s.flags) ∧
        (i ≠ .sub a → t.flags.b = s.flags.b)

/-- 41_alu.md section R93: STA changes the byte at `dataAddr a`, the address its meaning computes, and no
other byte; ac, flags and bookkeeping stay. -/
def Obligations.StaKeepsItsFrame : Prop :=
  ∀ (s t : State) (a : Nibble), exec (.sta a) s = .next t →
    (∀ x : Byte, x ≠ dataAddr a → t.memRead x = s.memRead x) ∧
    t.ac = s.ac ∧ t.flags = s.flags ∧ SameEngine s t

/-- 43_branch.md section 4, 44_engine.md section 3: the branches and HLT change no byte of memory, not ac and
no flag; the branches change none of the bookkeeping, HLT only the status. -/
def Obligations.ControlInstructionsKeepTheirFrame : Prop :=
  ∀ (s u : State) (sub t : Byte),
    ∀ i ∈ [Instr.jmp t, .jn t, .jz t, .jp t, .jv t, .jnv t, .jzx t, .jnz t, .jc t, .jnc t, .jb t, .jnb t,
           .extJmp sub t, .hlt],
      exec i s = .next u →
        SameBytes s u ∧ u.ac = s.ac ∧ u.flags = s.flags ∧ u.faultRecord = s.faultRecord ∧
        u.visited = s.visited ∧ u.steps = s.steps ∧ u.events = s.events ∧ u.cfg = s.cfg ∧
        (i ≠ .hlt → u.status = s.status)

/-! ## Laws of the Flag Unit and the shifts -/

/-- 40_flag_unit.md section R84 (derived there): for ADD, the flags are gates on the 9-bit sum. -/
def Obligations.AddFlagsAreGatesOnTheNineBitSum : Prop :=
  ∀ (s t : State) (a : Nibble), exec (.add a) s = .next t →
    let sum : BitVec 9 := s.ac.setWidth 9 + (s.operand a).setWidth 9
    t.ac = sum.setWidth 8 ∧ t.flags.n = sum.getLsbD 7 ∧ t.flags.z = (sum.setWidth 8 == 0#8) ∧
    t.flags.c = sum.getLsbD 8 ∧ t.flags.v = (sum.getLsbD 8 || sum.getLsbD 7)

/-- 40_flag_unit.md section R85 (derived there): for SUB, the flags are gates on the 9-bit difference. -/
def Obligations.SubFlagsAreGatesOnTheNineBitDifference : Prop :=
  ∀ (s t : State) (a : Nibble), exec (.sub a) s = .next t →
    let d : BitVec 9 := s.ac.setWidth 9 - (s.operand a).setWidth 9
    t.ac = d.setWidth 8 ∧ t.flags.n = d.getLsbD 7 ∧ t.flags.z = (d.setWidth 8 == 0#8) ∧
    t.flags.c = false ∧ t.flags.v = (d.getLsbD 8 ^^ d.getLsbD 7) ∧ t.flags.b = d.getLsbD 8

/-- 42_shift_rotate.md section R115 (derived there): SHL then SHR masks bit 7 off, SHR then SHL masks bit 0
off, both with C clear at the end; ROL then ROR and ROR then ROL give ac and C back. -/
def Obligations.ShiftPairsRoundTrip : Prop :=
  ∀ s t u : State,
    (exec .shl s = .next t → exec .shr t = .next u → u.ac = s.ac &&& 0x7F#8 ∧ u.flags.c = false) ∧
    (exec .shr s = .next t → exec .shl t = .next u → u.ac = s.ac &&& 0xFE#8 ∧ u.flags.c = false) ∧
    (exec .rol s = .next t → exec .ror t = .next u → u.ac = s.ac ∧ u.flags.c = s.flags.c) ∧
    (exec .ror s = .next t → exec .rol t = .next u → u.ac = s.ac ∧ u.flags.c = s.flags.c)

/-- 43_branch.md sections R123 to R134, 40_flag_unit.md R80 (the remark in R124 that N and Z are never both
set): in every state that meets the invariant exactly one of JN, JZ and JP to a target goes there,
where the target is not the next instruction; and an extended branch and its negation never both
go there, and never both fall through. -/
def Obligations.ConditionsPartitionTheBranches : Prop :=
  ∀ (s : State) (t : Byte), s.Inv → t.toNat ≠ s.seqNat 2 → s.pc.toNat ≤ 255 →
    (∃! i, i ∈ [Instr.jn t, .jz t, .jp t] ∧ ∃ u, exec i s = .next u ∧ u.pc.toNat = t.toNat) ∧
    ∀ p ∈ [(Instr.jv t, Instr.jnv t), (.jzx t, .jnz t), (.jc t, .jnc t), (.jb t, .jnb t)],
      ∃ u u', exec p.1 s = .next u ∧ exec p.2 s = .next u' ∧
        ((u.pc.toNat = t.toNat ∧ u'.pc.toNat = s.seqNat 3) ∨
         (u.pc.toNat = s.seqNat 3 ∧ u'.pc.toNat = t.toNat))
end

