-- ==== Sys2Proof/Laws/Decode.lean ====
section
/-! SUPPORT. The laws of the decoder: nibbles of a byte, OPCODE_MAP read backwards, the nibble left over. -/

namespace Sys2Proof

@[simp] theorem opcodeOf_firstByte (op lo : Nibble) : opcodeOf (firstByte op lo) = op := by
  revert op lo; decide

@[simp] theorem operandOf_firstByte (op lo : Nibble) : operandOf (firstByte op lo) = lo := by
  revert op lo; decide

theorem selectorOf_firstByte (op lo : Nibble) :
    selectorOf (firstByte op lo) = lo.setWidth 2 := by
  revert op lo; decide

theorem firstByte_opcodeOf_operandOf (b0 : Byte) : firstByte (opcodeOf b0) (operandOf b0) = b0 := by
  revert b0; decide

theorem OpClass.mem_all (c : OpClass) : c ∈ OpClass.all := by cases c <;> decide

/-- A legal OPCODE_MAP gives two classes two nibbles (30_encoding.md R63 (b)). -/
theorem OpcodeMap.nibble_injective {m : OpcodeMap} (h : m.wf = true) {c d : OpClass}
    (e : m.nibble c = m.nibble d) : c = d :=
  List.inj_on_of_nodup_map (of_decide_eq_true h) (OpClass.mem_all c) (OpClass.mem_all d) e

/-- What `classOf` answers has that nibble, whatever the map. -/
theorem OpcodeMap.nibble_of_classOf {m : OpcodeMap} {op : Nibble} {c : OpClass}
    (h : m.classOf op = some c) : m.nibble c = op := by
  simpa using List.find?_some h

/-- `classOf` answers none exactly for a nibble of no class. -/
theorem OpcodeMap.classOf_eq_none {m : OpcodeMap} {op : Nibble} :
    m.classOf op = none ↔ ∀ c, m.nibble c ≠ op := by
  simp only [OpcodeMap.classOf, List.find?_eq_none, beq_iff_eq]
  exact ⟨fun h c => h c (OpClass.mem_all c), fun h c _ => h c⟩

/-- Under a legal map `classOf` undoes `nibble`. -/
theorem OpcodeMap.classOf_nibble {m : OpcodeMap} (h : m.wf = true) (c : OpClass) :
    m.classOf (m.nibble c) = some c := by
  cases hc : m.classOf (m.nibble c) with
  | none => exact absurd rfl (OpcodeMap.classOf_eq_none.mp hc c)
  | some d => rw [OpcodeMap.nibble_injective h (OpcodeMap.nibble_of_classOf hc)]

/-- JMP's nibble is 8 under every map. -/
theorem OpcodeMap.classOf_eight {m : OpcodeMap} (h : m.wf = true) : m.classOf 8#4 = some .jmp :=
  OpcodeMap.classOf_nibble h .jmp

/-- HLT's nibble is 15 under every map. -/
theorem OpcodeMap.classOf_fifteen {m : OpcodeMap} (h : m.wf = true) : m.classOf 15#4 = some .hlt :=
  OpcodeMap.classOf_nibble h .hlt

/-- Every nibble is among the sixteen the encoder searches. -/
theorem nibble_mem_range (n : Nibble) : n ∈ (List.range 16).map (BitVec.ofNat 4) := by
  revert n; decide

/-- Every map leaves a nibble without a class, and `unassignedNibble` is it (30_encoding.md R63 (c)). -/
theorem OpcodeMap.classOf_unassignedNibble (m : OpcodeMap) :
    m.classOf m.unassignedNibble = none := by
  unfold OpcodeMap.unassignedNibble
  cases hf : ((List.range 16).map (BitVec.ofNat 4)).find? (fun n => (m.classOf n).isNone) with
  | some n => simpa using List.find?_some hf
  | none =>
    exfalso
    have all : ∀ n : Nibble, n ∈ OpClass.all.map m.nibble := fun n => by
      have hn := List.find?_eq_none.mp hf n (nibble_mem_range n)
      obtain ⟨c, hc⟩ : ∃ c, m.classOf n = some c := by
        cases hc : m.classOf n with
        | none => simp [hc] at hn
        | some c => exact ⟨c, rfl⟩
      exact List.mem_map.mpr ⟨c, OpClass.mem_all c, OpcodeMap.nibble_of_classOf hc⟩
    have : ((List.range 16).map (BitVec.ofNat 4)).length ≤ (OpClass.all.map m.nibble).length :=
      ((by decide : ((List.range 16).map (BitVec.ofNat 4)).Nodup).subperm fun n _ => all n).length_le
    simp [OpClass.all] at this

/-- A legal map leaves only one nibble without a class. -/
theorem OpcodeMap.eq_unassignedNibble {m : OpcodeMap} (h : m.wf = true) {op : Nibble}
    (ho : m.classOf op = none) : op = m.unassignedNibble := by
  by_contra hne
  have hu := OpcodeMap.classOf_eq_none.mp (OpcodeMap.classOf_unassignedNibble m)
  have ho' := OpcodeMap.classOf_eq_none.mp ho
  have nd : (op :: m.unassignedNibble :: OpClass.all.map m.nibble).Nodup := by
    refine List.nodup_cons.mpr ⟨?_, List.nodup_cons.mpr ⟨?_, of_decide_eq_true h⟩⟩
    · rintro hm
      rcases List.mem_cons.mp hm with e | hm
      · exact hne e
      · obtain ⟨c, _, e⟩ := List.mem_map.mp hm
        exact ho' c e
    · rintro hm
      obtain ⟨c, _, e⟩ := List.mem_map.mp hm
      exact hu c e
  have := (nd.subperm fun n _ => nibble_mem_range n).length_le
  simp [OpClass.all] at this

/-- A memory instruction's or an implied instruction's byte, at the head of any list. -/
theorem decode_firstByte (m : OpcodeMap) (h : m.wf = true) (c : OpClass) (x : Nibble) (rest : List Byte) :
    decode m (firstByte (m.nibble c) x :: rest) =
      match c with
      | .nop    => .ok (.nop, rest)
      | .sta    => .ok (.sta x, rest)
      | .lda    => .ok (.lda x, rest)
      | .add    => .ok (.add x, rest)
      | .or     => .ok (.or x, rest)
      | .and    => .ok (.and x, rest)
      | .not    => .ok (.not, rest)
      | .sub    => .ok (.sub x, rest)
      | .jmp    => decodeShortBranch .jmp rest
      | .jn     => decodeShortBranch .jn rest
      | .jz     => decodeShortBranch .jz rest
      | .jp     => decodeShortBranch .jp rest
      | .extJmp => decodeExtendedBranch rest
      | .shift  => .ok (decodeShift (x.setWidth 2), rest)
      | .hlt    => .ok (.hlt, rest) := by
  cases c <;> simp [decode, OpcodeMap.classOf_nibble h, selectorOf_firstByte]

/-- A shift group's byte, whatever its bits 3 and 2 (30_encoding.md R65). -/
theorem decode_shiftByte (m : OpcodeMap) (h : m.wf = true) (y sel : BitVec 2) (rest : List Byte) :
    decode m (firstByte (m.nibble .shift) (y ++ sel) :: rest) = .ok (decodeShift sel, rest) := by
  rw [decode_firstByte m h .shift]
  have e : ∀ y sel : BitVec 2, (y ++ sel).setWidth 2 = sel := by decide
  simp only [e]

/-- The first byte of a nibble without a class. -/
theorem decode_firstByte_of_none (m : OpcodeMap) (op x : Nibble) (rest : List Byte)
    (h : m.classOf op = none) : decode m (firstByte op x :: rest) = .ok (.unassigned, rest) := by
  simp [decode, h]

/-- The skipped extended branch keeps its subcode. -/
theorem decodeExtended_of_ge (sub t : Byte) (h : 8 ≤ sub.toNat) :
    decodeExtended sub t = .extJmp sub t := by
  unfold decodeExtended
  split <;> first | omega | rfl

/-- Whatever subcode it is given, the decoder makes a well-formed instruction of three bytes. -/
theorem decodeExtended_wf (sub t : Byte) : (decodeExtended sub t).wf = true := by
  unfold decodeExtended
  split <;> first | rfl | skip
  simp only [Instr.wf, decide_eq_true_eq]
  by_contra h
  interval_cases sub.toNat <;> simp_all

theorem decodeExtended_length (sub t : Byte) : (decodeExtended sub t).length = 3 := by
  unfold decodeExtended
  split <;> rfl

theorem decodeShift_wf (sel : BitVec 2) : (decodeShift sel).wf = true := by
  revert sel; decide

theorem decodeShift_length (sel : BitVec 2) : (decodeShift sel).length = 1 := by
  revert sel; decide

/-- The first byte of every shift's encoding has the shift group's nibble. -/
theorem encode_decodeShift_head (m : OpcodeMap) (sel : BitVec 2) :
    (encode m (decodeShift sel)).head?.map opcodeOf = some (m.nibble .shift) := by
  have h : ∀ sel : BitVec 2, decodeShift sel ∈ [Instr.shr, .shl, .ror, .rol] := by decide
  rcases List.mem_cons.mp (h sel) with e | e
  · simp [e, encode]
  · simp only [List.mem_cons, List.not_mem_nil, or_false] at e
    rcases e with e | e | e <;> simp [e, encode]

/-- The first byte of every extended branch's encoding has the extended branch's nibble. -/
theorem encode_decodeExtended_head (m : OpcodeMap) (sub t : Byte) :
    (encode m (decodeExtended sub t)).head?.map opcodeOf = some (m.nibble .extJmp) := by
  unfold decodeExtended
  split <;> simp [encode]

/-- An accepted short-form branch took one byte. -/
theorem decodeShortBranch_ok {mk : Byte → Instr} {bytes rest : List Byte} {i : Instr}
    (h : decodeShortBranch mk bytes = .ok (i, rest)) : ∃ t, bytes = t :: rest ∧ i = mk t := by
  cases bytes with
  | nil => simp [decodeShortBranch] at h
  | cons t bytes =>
    simp only [decodeShortBranch, Except.ok.injEq, Prod.mk.injEq] at h
    exact ⟨t, by rw [h.2], h.1.symm⟩

/-- An accepted extended branch took two bytes. -/
theorem decodeExtendedBranch_ok {bytes rest : List Byte} {i : Instr}
    (h : decodeExtendedBranch bytes = .ok (i, rest)) :
    ∃ sub t, bytes = sub :: t :: rest ∧ i = decodeExtended sub t := by
  match bytes, h with
  | [], h => simp [decodeExtendedBranch] at h
  | [_], h => simp [decodeExtendedBranch] at h
  | sub :: t :: bytes, h =>
    simp only [decodeExtendedBranch, Except.ok.injEq, Prod.mk.injEq] at h
    exact ⟨sub, t, by rw [h.2], h.1.symm⟩

/-- Everything `decode` can accept: the class of the opcode nibble, the bytes taken, the instruction. -/
theorem decode_ok_cases {m : OpcodeMap} {b0 : Byte} {bytes rest : List Byte} {i : Instr}
    (h : decode m (b0 :: bytes) = .ok (i, rest)) :
    (bytes = rest ∧
      ((m.classOf (opcodeOf b0) = none ∧ i = .unassigned) ∨
       (m.classOf (opcodeOf b0) = some .nop ∧ i = .nop) ∨
       (m.classOf (opcodeOf b0) = some .sta ∧ i = .sta (operandOf b0)) ∨
       (m.classOf (opcodeOf b0) = some .lda ∧ i = .lda (operandOf b0)) ∨
       (m.classOf (opcodeOf b0) = some .add ∧ i = .add (operandOf b0)) ∨
       (m.classOf (opcodeOf b0) = some .or ∧ i = .or (operandOf b0)) ∨
       (m.classOf (opcodeOf b0) = some .and ∧ i = .and (operandOf b0)) ∨
       (m.classOf (opcodeOf b0) = some .not ∧ i = .not) ∨
       (m.classOf (opcodeOf b0) = some .sub ∧ i = .sub (operandOf b0)) ∨
       (m.classOf (opcodeOf b0) = some .shift ∧ i = decodeShift (selectorOf b0)) ∨
       (m.classOf (opcodeOf b0) = some .hlt ∧ i = .hlt))) ∨
    (∃ t, bytes = t :: rest ∧
      ((m.classOf (opcodeOf b0) = some .jmp ∧ i = .jmp t) ∨
       (m.classOf (opcodeOf b0) = some .jn ∧ i = .jn t) ∨
       (m.classOf (opcodeOf b0) = some .jz ∧ i = .jz t) ∨
       (m.classOf (opcodeOf b0) = some .jp ∧ i = .jp t))) ∨
    (∃ sub t, bytes = sub :: t :: rest ∧ m.classOf (opcodeOf b0) = some .extJmp ∧
      i = decodeExtended sub t) := by
  cases hc : m.classOf (opcodeOf b0) with
  | none => simp_all [decode]
  | some c =>
    cases c
    case jmp | jn | jz | jp =>
      simp only [decode, hc] at h
      obtain ⟨t, hb, hi⟩ := decodeShortBranch_ok h
      exact .inr (.inl ⟨t, hb, by simp [hi]⟩)
    case extJmp =>
      simp only [decode, hc] at h
      obtain ⟨sub, t, hb, hi⟩ := decodeExtendedBranch_ok h
      exact .inr (.inr ⟨sub, t, hb, rfl, hi⟩)
    all_goals
      simp only [decode, hc, Except.ok.injEq, Prod.mk.injEq] at h
      exact .inl ⟨h.2, by simp [h.1]⟩

/-- An accepted instruction is well formed and its length is what was taken. -/
theorem decode_ok_wf_length {m : OpcodeMap} {b0 : Byte} {bytes rest : List Byte} {i : Instr}
    (h : decode m (b0 :: bytes) = .ok (i, rest)) :
    i.wf = true ∧ (b0 :: bytes).length = i.length + rest.length := by
  rcases decode_ok_cases h with ⟨rfl, h'⟩ | ⟨t, rfl, h'⟩ | ⟨sub, t, rfl, _, rfl⟩
  · clear h
    rcases h' with ⟨_, rfl⟩ | ⟨_, rfl⟩ | ⟨_, rfl⟩ | ⟨_, rfl⟩ | ⟨_, rfl⟩ | ⟨_, rfl⟩ | ⟨_, rfl⟩ | ⟨_, rfl⟩ |
      ⟨_, rfl⟩ | ⟨_, rfl⟩ | ⟨_, rfl⟩ <;>
    first
    | exact ⟨rfl, by simp [Instr.length, Nat.add_comm]⟩
    | exact ⟨decodeShift_wf _, by simp [decodeShift_length, Nat.add_comm]⟩
  · clear h
    rcases h' with ⟨_, rfl⟩ | ⟨_, rfl⟩ | ⟨_, rfl⟩ | ⟨_, rfl⟩ <;>
      exact ⟨rfl, by simp [Instr.length]; omega⟩
  · exact ⟨decodeExtended_wf sub t, by simp [decodeExtended_length]; omega⟩

end Sys2Proof
end

