-- ==== Sys2Proof/Laws/State.lean ====
section
/-! SUPPORT. One lemma per field per update of the state, so that no proof unfolds a record update. -/

namespace Sys2Proof.Machine

variable (s : State)

/-! ### `memWrite` -/

@[simp] theorem State.memWrite_pc (a v : Byte) : (s.memWrite a v).pc = s.pc := rfl
@[simp] theorem State.memWrite_ac (a v : Byte) : (s.memWrite a v).ac = s.ac := rfl
@[simp] theorem State.memWrite_flags (a v : Byte) : (s.memWrite a v).flags = s.flags := rfl
@[simp] theorem State.memWrite_mem (a v : Byte) : (s.memWrite a v).mem = s.mem.write a.toNat v := rfl
@[simp] theorem State.memWrite_status (a v : Byte) : (s.memWrite a v).status = s.status := rfl
@[simp] theorem State.memWrite_faultRecord (a v : Byte) : (s.memWrite a v).faultRecord = s.faultRecord := rfl
@[simp] theorem State.memWrite_visited (a v : Byte) : (s.memWrite a v).visited = s.visited := rfl
@[simp] theorem State.memWrite_steps (a v : Byte) : (s.memWrite a v).steps = s.steps := rfl
@[simp] theorem State.memWrite_events (a v : Byte) : (s.memWrite a v).events = s.events := rfl
@[simp] theorem State.memWrite_cfg (a v : Byte) : (s.memWrite a v).cfg = s.cfg := rfl

/-! ### `setPc` -/

@[simp] theorem State.setPc_pc (v : Pc) : (s.setPc v).pc = v := rfl
@[simp] theorem State.setPc_ac (v : Pc) : (s.setPc v).ac = s.ac := rfl
@[simp] theorem State.setPc_flags (v : Pc) : (s.setPc v).flags = s.flags := rfl
@[simp] theorem State.setPc_mem (v : Pc) : (s.setPc v).mem = s.mem := rfl
@[simp] theorem State.setPc_status (v : Pc) : (s.setPc v).status = s.status := rfl
@[simp] theorem State.setPc_faultRecord (v : Pc) : (s.setPc v).faultRecord = s.faultRecord := rfl
@[simp] theorem State.setPc_visited (v : Pc) : (s.setPc v).visited = s.visited := rfl
@[simp] theorem State.setPc_steps (v : Pc) : (s.setPc v).steps = s.steps := rfl
@[simp] theorem State.setPc_events (v : Pc) : (s.setPc v).events = s.events := rfl
@[simp] theorem State.setPc_cfg (v : Pc) : (s.setPc v).cfg = s.cfg := rfl

/-! ### `setAc` -/

@[simp] theorem State.setAc_pc (v : Byte) : (s.setAc v).pc = s.pc := rfl
@[simp] theorem State.setAc_ac (v : Byte) : (s.setAc v).ac = v := rfl
@[simp] theorem State.setAc_flags (v : Byte) : (s.setAc v).flags = s.flags := rfl
@[simp] theorem State.setAc_mem (v : Byte) : (s.setAc v).mem = s.mem := rfl
@[simp] theorem State.setAc_status (v : Byte) : (s.setAc v).status = s.status := rfl
@[simp] theorem State.setAc_faultRecord (v : Byte) : (s.setAc v).faultRecord = s.faultRecord := rfl
@[simp] theorem State.setAc_visited (v : Byte) : (s.setAc v).visited = s.visited := rfl
@[simp] theorem State.setAc_steps (v : Byte) : (s.setAc v).steps = s.steps := rfl
@[simp] theorem State.setAc_events (v : Byte) : (s.setAc v).events = s.events := rfl
@[simp] theorem State.setAc_cfg (v : Byte) : (s.setAc v).cfg = s.cfg := rfl

/-! ### `setFlags` -/

@[simp] theorem State.setFlags_pc (f : Flags) : (s.setFlags f).pc = s.pc := rfl
@[simp] theorem State.setFlags_ac (f : Flags) : (s.setFlags f).ac = s.ac := rfl
@[simp] theorem State.setFlags_flags (f : Flags) : (s.setFlags f).flags = f := rfl
@[simp] theorem State.setFlags_mem (f : Flags) : (s.setFlags f).mem = s.mem := rfl
@[simp] theorem State.setFlags_status (f : Flags) : (s.setFlags f).status = s.status := rfl
@[simp] theorem State.setFlags_faultRecord (f : Flags) : (s.setFlags f).faultRecord = s.faultRecord := rfl
@[simp] theorem State.setFlags_visited (f : Flags) : (s.setFlags f).visited = s.visited := rfl
@[simp] theorem State.setFlags_steps (f : Flags) : (s.setFlags f).steps = s.steps := rfl
@[simp] theorem State.setFlags_events (f : Flags) : (s.setFlags f).events = s.events := rfl
@[simp] theorem State.setFlags_cfg (f : Flags) : (s.setFlags f).cfg = s.cfg := rfl

/-! ### `advance` -/

@[simp] theorem State.advance_pc (n : Nat) : (s.advance n).pc = s.seqNext n := rfl
@[simp] theorem State.advance_ac (n : Nat) : (s.advance n).ac = s.ac := rfl
@[simp] theorem State.advance_flags (n : Nat) : (s.advance n).flags = s.flags := rfl
@[simp] theorem State.advance_mem (n : Nat) : (s.advance n).mem = s.mem := rfl
@[simp] theorem State.advance_status (n : Nat) : (s.advance n).status = s.status := rfl
@[simp] theorem State.advance_faultRecord (n : Nat) : (s.advance n).faultRecord = s.faultRecord := rfl
@[simp] theorem State.advance_visited (n : Nat) : (s.advance n).visited = s.visited := rfl
@[simp] theorem State.advance_steps (n : Nat) : (s.advance n).steps = s.steps := rfl
@[simp] theorem State.advance_events (n : Nat) : (s.advance n).events = s.events := rfl
@[simp] theorem State.advance_cfg (n : Nat) : (s.advance n).cfg = s.cfg := rfl

/-! ### `stop` -/

@[simp] theorem State.stop_pc (x : Status) : (s.stop x).pc = s.pc := rfl
@[simp] theorem State.stop_ac (x : Status) : (s.stop x).ac = s.ac := rfl
@[simp] theorem State.stop_flags (x : Status) : (s.stop x).flags = s.flags := rfl
@[simp] theorem State.stop_mem (x : Status) : (s.stop x).mem = s.mem := rfl
@[simp] theorem State.stop_status (x : Status) : (s.stop x).status = x := rfl
@[simp] theorem State.stop_faultRecord (x : Status) : (s.stop x).faultRecord = s.faultRecord := rfl
@[simp] theorem State.stop_visited (x : Status) : (s.stop x).visited = s.visited := rfl
@[simp] theorem State.stop_steps (x : Status) : (s.stop x).steps = s.steps := rfl
@[simp] theorem State.stop_events (x : Status) : (s.stop x).events = s.events := rfl
@[simp] theorem State.stop_cfg (x : Status) : (s.stop x).cfg = s.cfg := rfl

/-! ### `raise` -/

@[simp] theorem State.raise_pc (k : Fault) : (s.raise k).pc = s.pc := rfl
@[simp] theorem State.raise_ac (k : Fault) : (s.raise k).ac = s.ac := rfl
@[simp] theorem State.raise_flags (k : Fault) : (s.raise k).flags = s.flags := rfl
@[simp] theorem State.raise_mem (k : Fault) : (s.raise k).mem = s.mem := rfl
@[simp] theorem State.raise_status (k : Fault) : (s.raise k).status = .faulted k := rfl
@[simp] theorem State.raise_faultRecord (k : Fault) : (s.raise k).faultRecord = some ⟨k, s.pc⟩ := rfl
@[simp] theorem State.raise_visited (k : Fault) : (s.raise k).visited = s.visited := rfl
@[simp] theorem State.raise_steps (k : Fault) : (s.raise k).steps = s.steps := rfl
@[simp] theorem State.raise_events (k : Fault) : (s.raise k).events = s.events := rfl
@[simp] theorem State.raise_cfg (k : Fault) : (s.raise k).cfg = s.cfg := rfl

/-! ### `markVisited` -/

@[simp] theorem State.markVisited_pc (a : Nat) : (s.markVisited a).pc = s.pc := rfl
@[simp] theorem State.markVisited_ac (a : Nat) : (s.markVisited a).ac = s.ac := rfl
@[simp] theorem State.markVisited_flags (a : Nat) : (s.markVisited a).flags = s.flags := rfl
@[simp] theorem State.markVisited_mem (a : Nat) : (s.markVisited a).mem = s.mem := rfl
@[simp] theorem State.markVisited_status (a : Nat) : (s.markVisited a).status = s.status := rfl
@[simp] theorem State.markVisited_faultRecord (a : Nat) : (s.markVisited a).faultRecord = s.faultRecord := rfl
@[simp] theorem State.markVisited_visited (a : Nat) : (s.markVisited a).visited = s.visited ||| (1#256 <<< a) := rfl
@[simp] theorem State.markVisited_steps (a : Nat) : (s.markVisited a).steps = s.steps := rfl
@[simp] theorem State.markVisited_events (a : Nat) : (s.markVisited a).events = s.events := rfl
@[simp] theorem State.markVisited_cfg (a : Nat) : (s.markVisited a).cfg = s.cfg := rfl

/-! ### `countStep` -/

@[simp] theorem State.countStep_pc : (s.countStep).pc = s.pc := rfl
@[simp] theorem State.countStep_ac : (s.countStep).ac = s.ac := rfl
@[simp] theorem State.countStep_flags : (s.countStep).flags = s.flags := rfl
@[simp] theorem State.countStep_mem : (s.countStep).mem = s.mem := rfl
@[simp] theorem State.countStep_status : (s.countStep).status = s.status := rfl
@[simp] theorem State.countStep_faultRecord : (s.countStep).faultRecord = s.faultRecord := rfl
@[simp] theorem State.countStep_visited : (s.countStep).visited = s.visited := rfl
@[simp] theorem State.countStep_steps : (s.countStep).steps = s.steps + 1 := rfl
@[simp] theorem State.countStep_events : (s.countStep).events = s.events := rfl
@[simp] theorem State.countStep_cfg : (s.countStep).cfg = s.cfg := rfl

/-! ### `emit` -/

@[simp] theorem State.emit_pc (e : Event) : (s.emit e).pc = s.pc := rfl
@[simp] theorem State.emit_ac (e : Event) : (s.emit e).ac = s.ac := rfl
@[simp] theorem State.emit_flags (e : Event) : (s.emit e).flags = s.flags := rfl
@[simp] theorem State.emit_mem (e : Event) : (s.emit e).mem = s.mem := rfl
@[simp] theorem State.emit_status (e : Event) : (s.emit e).status = s.status := rfl
@[simp] theorem State.emit_faultRecord (e : Event) : (s.emit e).faultRecord = s.faultRecord := rfl
@[simp] theorem State.emit_visited (e : Event) : (s.emit e).visited = s.visited := rfl
@[simp] theorem State.emit_steps (e : Event) : (s.emit e).steps = s.steps := rfl
@[simp] theorem State.emit_events (e : Event) : (s.emit e).events = s.events ++ [e] := rfl
@[simp] theorem State.emit_cfg (e : Event) : (s.emit e).cfg = s.cfg := rfl

/-! ### `writeRaw` -/

@[simp] theorem State.writeRaw_pc (r : Int) : (s.writeRaw r).pc = s.pc := rfl
@[simp] theorem State.writeRaw_ac (r : Int) : (s.writeRaw r).ac = BitVec.ofInt 8 r := rfl
@[simp] theorem State.writeRaw_flags (r : Int) : (s.writeRaw r).flags = s.flags.apply (updateFlags r) := rfl
@[simp] theorem State.writeRaw_mem (r : Int) : (s.writeRaw r).mem = s.mem := rfl
@[simp] theorem State.writeRaw_status (r : Int) : (s.writeRaw r).status = s.status := rfl
@[simp] theorem State.writeRaw_faultRecord (r : Int) : (s.writeRaw r).faultRecord = s.faultRecord := rfl
@[simp] theorem State.writeRaw_visited (r : Int) : (s.writeRaw r).visited = s.visited := rfl
@[simp] theorem State.writeRaw_steps (r : Int) : (s.writeRaw r).steps = s.steps := rfl
@[simp] theorem State.writeRaw_events (r : Int) : (s.writeRaw r).events = s.events := rfl
@[simp] theorem State.writeRaw_cfg (r : Int) : (s.writeRaw r).cfg = s.cfg := rfl

/-! ### `writeMasked` -/

@[simp] theorem State.writeMasked_pc (r : Byte) : (s.writeMasked r).pc = s.pc := rfl
@[simp] theorem State.writeMasked_ac (r : Byte) : (s.writeMasked r).ac = r := rfl
@[simp] theorem State.writeMasked_flags (r : Byte) : (s.writeMasked r).flags = s.flags.apply (updateFlagsMasked r) := rfl
@[simp] theorem State.writeMasked_mem (r : Byte) : (s.writeMasked r).mem = s.mem := rfl
@[simp] theorem State.writeMasked_status (r : Byte) : (s.writeMasked r).status = s.status := rfl
@[simp] theorem State.writeMasked_faultRecord (r : Byte) : (s.writeMasked r).faultRecord = s.faultRecord := rfl
@[simp] theorem State.writeMasked_visited (r : Byte) : (s.writeMasked r).visited = s.visited := rfl
@[simp] theorem State.writeMasked_steps (r : Byte) : (s.writeMasked r).steps = s.steps := rfl
@[simp] theorem State.writeMasked_events (r : Byte) : (s.writeMasked r).events = s.events := rfl
@[simp] theorem State.writeMasked_cfg (r : Byte) : (s.writeMasked r).cfg = s.cfg := rfl

/-! ### `setBorrow` -/

@[simp] theorem State.setBorrow_pc (b : Bool) : (s.setBorrow b).pc = s.pc := rfl
@[simp] theorem State.setBorrow_ac (b : Bool) : (s.setBorrow b).ac = s.ac := rfl
@[simp] theorem State.setBorrow_flags (b : Bool) : (s.setBorrow b).flags = { s.flags with b := b } := rfl
@[simp] theorem State.setBorrow_mem (b : Bool) : (s.setBorrow b).mem = s.mem := rfl
@[simp] theorem State.setBorrow_status (b : Bool) : (s.setBorrow b).status = s.status := rfl
@[simp] theorem State.setBorrow_faultRecord (b : Bool) : (s.setBorrow b).faultRecord = s.faultRecord := rfl
@[simp] theorem State.setBorrow_visited (b : Bool) : (s.setBorrow b).visited = s.visited := rfl
@[simp] theorem State.setBorrow_steps (b : Bool) : (s.setBorrow b).steps = s.steps := rfl
@[simp] theorem State.setBorrow_events (b : Bool) : (s.setBorrow b).events = s.events := rfl
@[simp] theorem State.setBorrow_cfg (b : Bool) : (s.setBorrow b).cfg = s.cfg := rfl

/-! ### `setCarry` -/

@[simp] theorem State.setCarry_pc (c : Bool) : (s.setCarry c).pc = s.pc := rfl
@[simp] theorem State.setCarry_ac (c : Bool) : (s.setCarry c).ac = s.ac := rfl
@[simp] theorem State.setCarry_flags (c : Bool) : (s.setCarry c).flags = { s.flags with c := c } := rfl
@[simp] theorem State.setCarry_mem (c : Bool) : (s.setCarry c).mem = s.mem := rfl
@[simp] theorem State.setCarry_status (c : Bool) : (s.setCarry c).status = s.status := rfl
@[simp] theorem State.setCarry_faultRecord (c : Bool) : (s.setCarry c).faultRecord = s.faultRecord := rfl
@[simp] theorem State.setCarry_visited (c : Bool) : (s.setCarry c).visited = s.visited := rfl
@[simp] theorem State.setCarry_steps (c : Bool) : (s.setCarry c).steps = s.steps := rfl
@[simp] theorem State.setCarry_events (c : Bool) : (s.setCarry c).events = s.events := rfl
@[simp] theorem State.setCarry_cfg (c : Bool) : (s.setCarry c).cfg = s.cfg := rfl

/-! ### `shiftResult` -/

@[simp] theorem State.shiftResult_pc (r : Byte) (c : Bool) : (s.shiftResult r c).pc = s.seqNext 1 := rfl
@[simp] theorem State.shiftResult_ac (r : Byte) (c : Bool) : (s.shiftResult r c).ac = r := rfl
@[simp] theorem State.shiftResult_flags (r : Byte) (c : Bool) : (s.shiftResult r c).flags = { s.flags.apply (updateFlagsMasked r) with c := c } := rfl
@[simp] theorem State.shiftResult_mem (r : Byte) (c : Bool) : (s.shiftResult r c).mem = s.mem := rfl
@[simp] theorem State.shiftResult_status (r : Byte) (c : Bool) : (s.shiftResult r c).status = s.status := rfl
@[simp] theorem State.shiftResult_faultRecord (r : Byte) (c : Bool) : (s.shiftResult r c).faultRecord = s.faultRecord := rfl
@[simp] theorem State.shiftResult_visited (r : Byte) (c : Bool) : (s.shiftResult r c).visited = s.visited := rfl
@[simp] theorem State.shiftResult_steps (r : Byte) (c : Bool) : (s.shiftResult r c).steps = s.steps := rfl
@[simp] theorem State.shiftResult_events (r : Byte) (c : Bool) : (s.shiftResult r c).events = s.events := rfl
@[simp] theorem State.shiftResult_cfg (r : Byte) (c : Bool) : (s.shiftResult r c).cfg = s.cfg := rfl

/-! ### SeqNext reads pc and PC_WRAP alone -/

@[simp] theorem State.memWrite_seqNext (a v : Byte) (n : Nat) : (s.memWrite a v).seqNext n = s.seqNext n := rfl
@[simp] theorem State.setAc_seqNext (v : Byte) (n : Nat) : (s.setAc v).seqNext n = s.seqNext n := rfl
@[simp] theorem State.setFlags_seqNext (f : Flags) (n : Nat) : (s.setFlags f).seqNext n = s.seqNext n := rfl
@[simp] theorem State.writeRaw_seqNext (r : Int) (n : Nat) : (s.writeRaw r).seqNext n = s.seqNext n := rfl
@[simp] theorem State.writeMasked_seqNext (r : Byte) (n : Nat) : (s.writeMasked r).seqNext n = s.seqNext n := rfl
@[simp] theorem State.setBorrow_seqNext (b : Bool) (n : Nat) : (s.setBorrow b).seqNext n = s.seqNext n := rfl
@[simp] theorem State.setCarry_seqNext (c : Bool) (n : Nat) : (s.setCarry c).seqNext n = s.seqNext n := rfl

/-! ### The flag patch -/

variable (f : Flags) (p : FlagPatch)

@[simp] theorem Flags.apply_n : (f.apply p).n = p.n := rfl
@[simp] theorem Flags.apply_z : (f.apply p).z = p.z := rfl
@[simp] theorem Flags.apply_v : (f.apply p).v = p.v := rfl
@[simp] theorem Flags.apply_c : (f.apply p).c = p.c := rfl
@[simp] theorem Flags.apply_b : (f.apply p).b = f.b := rfl

@[simp] theorem updateFlagsMasked_n (r : Byte) : (updateFlagsMasked r).n = r.getLsbD 7 := rfl
@[simp] theorem updateFlagsMasked_z (r : Byte) : (updateFlagsMasked r).z = (r == 0) := rfl
@[simp] theorem updateFlagsMasked_v (r : Byte) : (updateFlagsMasked r).v = false := rfl
@[simp] theorem updateFlagsMasked_c (r : Byte) : (updateFlagsMasked r).c = false := rfl

end Sys2Proof.Machine
end

