-- ==== Sys2Proof/Laws/Memory.lean ====
section
/-! SUPPORT. The laws of the Memory Bank: read after write, and the canonical form every operation keeps. -/

namespace Sys2Proof

@[simp] theorem Memory.read_nil (k : Nat) : Memory.read [] k = 0#8 := rfl

/-- Reading the cell inserted gives its byte. -/
theorem Memory.read_insert_same (m : Memory) (k : Nat) (x : Byte) :
    Memory.read (Memory.insert m k x) k = x := by
  induction m with
  | nil => simp [Memory.insert, Memory.read]
  | cons c m ih =>
    obtain ⟨a, v⟩ := c
    rcases lt_trichotomy k a with hk | rfl | hk
    · simp [Memory.insert, Memory.read, hk]
    · simp [Memory.insert, Memory.read]
    · simp [Memory.insert, Memory.read, hk.not_gt, hk.ne', ih]

/-- Inserting a cell leaves every other one as it was. -/
theorem Memory.read_insert_other (m : Memory) (k j : Nat) (x : Byte) (hj : j ≠ k) :
    Memory.read (Memory.insert m k x) j = Memory.read m j := by
  induction m with
  | nil => simp [Memory.insert, Memory.read, hj]
  | cons c m ih =>
    obtain ⟨a, v⟩ := c
    rcases lt_trichotomy k a with hk | rfl | hk
    · simp [Memory.insert, Memory.read, hk, hj]
    · simp [Memory.insert, Memory.read, hj]
    · simp [Memory.insert, Memory.read, hk.not_gt, hk.ne', ih]

/-- Removing a cell makes it read 0. -/
theorem Memory.read_remove_same (m : Memory) (k : Nat) :
    Memory.read (m.filter (fun c => c.1 != k)) k = 0#8 := by
  induction m with
  | nil => rfl
  | cons c m ih =>
    obtain ⟨a, v⟩ := c
    by_cases h : a = k
    · simpa [h] using ih
    · simpa [h, Memory.read, Ne.symm h] using ih

/-- Removing a cell leaves every other one as it was. -/
theorem Memory.read_remove_other (m : Memory) (k j : Nat) (hj : j ≠ k) :
    Memory.read (m.filter (fun c => c.1 != k)) j = Memory.read m j := by
  induction m with
  | nil => rfl
  | cons c m ih =>
    obtain ⟨a, v⟩ := c
    by_cases h : a = k
    · simpa [h, Memory.read, hj] using ih
    · simp [h, Memory.read, ih]

/-- Reading the cell written gives the byte written. -/
theorem Memory.read_write_same (m : Memory) (k : Nat) (x : Byte) :
    Memory.read (Memory.write m k x) k = x := by
  unfold Memory.write
  split
  · rename_i h; rw [h]; exact Memory.read_remove_same m k
  · exact Memory.read_insert_same m k x

/-- A write leaves every other cell as it was. -/
theorem Memory.read_write_other (m : Memory) (k j : Nat) (x : Byte) (hj : j ≠ k) :
    Memory.read (Memory.write m k x) j = Memory.read m j := by
  unfold Memory.write
  split
  · exact Memory.read_remove_other m k j hj
  · exact Memory.read_insert_other m k j x hj

/-- An insertion lists the new cell and old ones. -/
theorem Memory.mem_insert (m : Memory) (k : Nat) (x : Byte) (c : Host.Cell)
    (h : c ∈ Memory.insert m k x) : c ∈ m ∨ c = (k, x) := by
  induction m with
  | nil => exact .inr (by simpa [Memory.insert] using h)
  | cons d m ih =>
    obtain ⟨a, v⟩ := d
    rcases lt_trichotomy k a with hk | rfl | hk
    · have h' : c = (k, x) ∨ c ∈ (a, v) :: m := by simpa [Memory.insert, hk] using h
      exact h'.symm
    · have h' : c = (k, x) ∨ c ∈ m := by simpa [Memory.insert] using h
      exact h'.symm.imp_left fun e => by simp [e]
    · have h' : c = (a, v) ∨ c ∈ Memory.insert m k x := by
        simpa [Memory.insert, hk.not_gt, hk.ne'] using h
      rcases h' with e | e
      · exact .inl (by simp [e])
      · exact (ih e).imp_left fun e => by simp [e]

/-- An insertion keeps addresses strictly rising. -/
theorem Memory.insert_pairwise (m : Memory) (k : Nat) (x : Byte) (h : m.Pairwise (fun x y => x.1 < y.1)) :
    (Memory.insert m k x).Pairwise (fun x y => x.1 < y.1) := by
  induction m with
  | nil => simp [Memory.insert]
  | cons d m ih =>
    obtain ⟨a, v⟩ := d
    obtain ⟨hlt, hm⟩ := List.pairwise_cons.mp h
    rcases lt_trichotomy k a with hk | rfl | hk
    · have : (((k, x) : Host.Cell) :: (a, v) :: m).Pairwise (fun x y => x.1 < y.1) :=
        List.pairwise_cons.mpr ⟨fun c hc => by
          rcases List.mem_cons.mp hc with rfl | hc
          · exact hk
          · exact hk.trans (hlt c hc), h⟩
      simpa [Memory.insert, hk] using this
    · have : (((k, x) : Host.Cell) :: m).Pairwise (fun x y => x.1 < y.1) :=
        List.pairwise_cons.mpr ⟨hlt, hm⟩
      simpa [Memory.insert] using this
    · have : (((a, v) : Host.Cell) :: Memory.insert m k x).Pairwise (fun x y => x.1 < y.1) :=
        List.pairwise_cons.mpr ⟨fun c hc => by
          rcases Memory.mem_insert m k x c hc with hc | rfl
          · exact hlt c hc
          · exact hk, ih hm⟩
      simpa [Memory.insert, hk.not_gt, hk.ne'] using this

/-- A write inside the 256 cells keeps the canonical form. -/
theorem Memory.write_wf (m : Memory) (k : Nat) (x : Byte) (hk : k < 256) (h : m.wf) :
    (Memory.write m k x).wf := by
  unfold Memory.write
  split
  · exact ⟨h.1.filter _, fun c hc => h.2 c (List.mem_of_mem_filter hc)⟩
  · rename_i hx
    refine ⟨Memory.insert_pairwise m k x h.1, fun c hc => ?_⟩
    rcases Memory.mem_insert m k x c hc with hc | rfl
    · exact h.2 c hc
    · exact ⟨hx, hk⟩

/-- `MemWrite` keeps the canonical form. -/
theorem Machine.State.memWrite_wf (s : Machine.State) (a v : Byte) (h : s.mem.wf) :
    (s.memWrite a v).mem.wf :=
  Memory.write_wf s.mem a.toNat v a.isLt h

/-- The image built from a loader's bytes is in canonical form. -/
theorem Memory.ofBytes_wf (bytes : List Byte) : (Memory.ofBytes bytes).wf := by
  have key : ∀ (l : List (Byte × Nat)) (m : Memory), m.wf → (∀ p ∈ l, p.2 < 256) →
      (l.foldl (fun m p => Memory.write m p.2 p.1) m).wf := by
    intro l
    induction l with
    | nil => exact fun m hm _ => hm
    | cons p l ih =>
      exact fun m hm hl => ih _ (Memory.write_wf m p.2 p.1 (hl p (by simp)) hm)
        fun q hq => hl q (by simp [hq])
  refine key _ [] (by decide) fun p hp => ?_
  have h := List.mem_zipIdx hp
  have h2 : (bytes.take 256).length ≤ 256 := by simp
  omega

/-- The reset memory is the image, so it is in canonical form where the image is. -/
theorem Machine.State.reset_mem_wf : Machine.State.reset.mem.wf := by decide

/-- `MemRead` after `MemWrite`, the same cell. -/
theorem Machine.State.memRead_memWrite_same (s : Machine.State) (a v : Byte) :
    (s.memWrite a v).memRead a = v :=
  Memory.read_write_same s.mem a.toNat v

/-- `MemRead` after `MemWrite`, any other cell. -/
theorem Machine.State.memRead_memWrite_other (s : Machine.State) (a x v : Byte) (h : x ≠ a) :
    (s.memWrite a v).memRead x = s.memRead x :=
  Memory.read_write_other s.mem a.toNat x.toNat v fun e => h (BitVec.eq_of_toNat_eq e)

end Sys2Proof
end

