-- ==== Sys2Proof/Laws/Ops.lean ====
section
/-! SUPPORT. What each shared operation does, said once. -/

namespace Sys2Proof

/-- A configuration the spec admits is not refused, and no other one runs. -/
theorem Config.refusal?_eq_none {c : Config} :
    c.refusal? = none ↔ 1 ≤ c.stepLimit ∧ c.opcodeMap.wf = true := by
  unfold Config.refusal?
  split_ifs with h0 h1
  · simp [h0]
  · simp [h1]; omega
  · simp [h1]

end Sys2Proof

namespace Sys2Proof.Machine

/-- SeqNext as a number, where the pc is an address (10_state.md R25). -/
theorem State.seqNext_toNat (s : State) (n : Nat) (h : s.pc.toNat + n < 512) :
    (s.seqNext n).toNat = s.seqNat n := by
  unfold State.seqNext State.seqNat
  split <;> simp <;> omega

@[simp] theorem targetPc_toNat (t : Byte) : (targetPc t).toNat = t.toNat := by
  simp only [targetPc, BitVec.toNat_setWidth]
  omega

@[simp] theorem dataAddr_toNat (a : Nibble) : (dataAddr a).toNat = a.toNat := by
  simp only [dataAddr, BitVec.toNat_setWidth]
  omega

/-- The operand of a memory instruction is the cell of its number. -/
theorem State.operand_eq_read (s : State) (a : Nibble) : s.operand a = Memory.read s.mem a.toNat := by
  simp [State.operand, State.memRead]

/-- Every address from 256 up, 256 above all, is outside Visited (44_engine.md R148). -/
theorem State.visits_of_ge (s : State) (a : Nat) (h : 256 ≤ a) : s.visits a = false :=
  BitVec.getLsbD_of_ge _ _ h

/-- Marking an address adds it and nothing else (44_engine.md R148). -/
theorem State.visits_markVisited (s : State) (p a : Nat) (h : p < 256) :
    (s.markVisited p).visits a = (s.visits a || a == p) := by
  by_cases ha : a < 256
  · simp only [State.visits, State.markVisited_visited, BitVec.getLsbD_or, BitVec.getLsbD_shiftLeft,
      BitVec.getLsbD_one]
    congr 1
    by_cases e : a = p
    · simp [e, h]
    · rcases Nat.lt_or_gt_of_ne e with e | e
      · simp [e, e.ne]
      · have : a - p ≠ 0 := by omega
        simp [this, e.ne']
  · have e : a ≠ p := by omega
    simp [State.visits_of_ge _ a (by omega), e]

/-- A branch loads its target or moves on. -/
theorem State.branchIf_eq (s : State) (take : Bool) (t : Byte) (n : Nat) :
    s.branchIf take t n = s.setPc (if take then targetPc t else s.seqNext n) := by
  cases take <;> rfl

/-- Bit 7 of a byte as a number. -/
theorem getLsbD_seven (r : Byte) : r.getLsbD 7 = decide (128 ≤ r.toNat) := by
  revert r; decide

/-- A zero test as a number. -/
theorem beq_zero (r : Byte) : (r == 0) = decide (r.toNat = 0) := by
  revert r; decide

/-- The low byte of an integer is the integer modulo 256 (00_scope.md R10). -/
theorem ofInt_toNat (raw : Int) : (((BitVec.ofInt 8 raw).toNat : Nat) : Int) = raw % 256 := by
  rw [BitVec.toNat_ofInt]
  omega

/-- The Flag Unit's raw-value update as arithmetic, on the raws its callers pass (40_flag_unit.md R80, R86). -/
theorem updateFlags_spec (raw : Int) (h : raw ≤ 510) :
    (updateFlags raw).n = decide (128 ≤ raw % 256) ∧ (updateFlags raw).z = decide (raw % 256 = 0) ∧
    (updateFlags raw).v = decide (raw > 127 ∨ raw < -128) ∧ (updateFlags raw).c = decide (256 ≤ raw) := by
  have e := ofInt_toNat raw
  refine ⟨?_, ?_, ?_, ?_⟩
  · simp only [updateFlags, getLsbD_seven, decide_eq_decide]
    omega
  · simp only [updateFlags, beq_zero, decide_eq_decide]
    omega
  · simp only [updateFlags, Bool.decide_or]
  · simp only [updateFlags, ← Bool.decide_and, decide_eq_decide]
    omega

/-- The readout vector as a number (10_state.md R37). -/
theorem Flags.vector_toNat (f : Flags) :
    f.vector.toNat = 16 * f.n.toNat + 8 * f.z.toNat + 4 * f.v.toNat + 2 * f.c.toNat + f.b.toNat := by
  obtain ⟨n, z, v, c, b⟩ := f
  revert n z v c b
  decide

end Sys2Proof.Machine
end

