-- ==== Sys2Proof/Laws/Step.lean ====
section
/-! SUPPORT. What an instruction, the fetch, the end of a step and a step can do, said once each. -/

namespace Sys2Proof.Machine

/-! ### One instruction -/

/-- Every instruction has a next state, in every state. -/
theorem exec_total (i : Instr) (s : State) : ∃ t, exec i s = .next t := by
  cases i <;> exact ⟨_, rfl⟩

/-- The pc after an instruction: past its bytes, or a branch target; the illegal opcode leaves it. -/
theorem exec_pc {i : Instr} {s t : State} (h : exec i s = .next t) :
    (i = .unassigned ∧ t.pc = s.pc) ∨
    (i ≠ .unassigned ∧ (t.pc = s.seqNext i.length ∨ ∃ b : Byte, t.pc = targetPc b)) := by
  cases i
  case unassigned => cases h; exact .inl ⟨rfl, rfl⟩
  case jmp | jn | jz | jp | jv | jnv | jzx | jnz | jc | jnc | jb | jnb | extJmp =>
    cases h
    rw [State.branchIf_eq, State.setPc_pc]
    split
    · exact .inr ⟨nofun, .inr ⟨_, rfl⟩⟩
    · exact .inr ⟨nofun, .inl rfl⟩
  all_goals cases h; exact .inr ⟨nofun, .inl rfl⟩

/-- The status after an instruction: HLT halts, the illegal opcode faults, no other one sets it. -/
theorem exec_status {i : Instr} {s t : State} (h : exec i s = .next t) :
    t.status = if i = .hlt then .halted
      else if i = .unassigned then .faulted .unknownBranchOpcode else s.status := by
  cases i
  case jmp | jn | jz | jp | jv | jnv | jzx | jnz | jc | jnc | jb | jnb | extJmp =>
    cases h
    rw [State.branchIf_eq]
    rfl
  all_goals cases h; rfl

/-- The fault record after an instruction: only the illegal opcode writes it. -/
theorem exec_faultRecord {i : Instr} {s t : State} (h : exec i s = .next t) :
    t.faultRecord = if i = .unassigned then some ⟨.unknownBranchOpcode, s.pc⟩ else s.faultRecord := by
  cases i
  case jmp | jn | jz | jp | jv | jnv | jzx | jnz | jc | jnc | jb | jnb | extJmp =>
    cases h
    rw [State.branchIf_eq]
    rfl
  all_goals cases h; rfl

/-- The memory after an instruction: only STA writes it (20_memory.md R44). -/
theorem exec_mem {i : Instr} {s t : State} (h : exec i s = .next t) :
    (∃ a, i = .sta a ∧ t.mem = Memory.write s.mem (dataAddr a).toNat s.ac) ∨
    ((∀ a, i ≠ .sta a) ∧ t.mem = s.mem) := by
  cases i
  case sta a => cases h; exact .inl ⟨a, rfl, rfl⟩
  case jmp | jn | jz | jp | jv | jnv | jzx | jnz | jc | jnc | jb | jnb | extJmp =>
    cases h
    rw [State.branchIf_eq]
    exact .inr ⟨nofun, rfl⟩
  all_goals cases h; exact .inr ⟨nofun, rfl⟩

/-- No instruction touches Visited, Steps, the EVENT stream or the configuration. -/
theorem exec_bookkeeping {i : Instr} {s t : State} (h : exec i s = .next t) :
    t.visited = s.visited ∧ t.steps = s.steps ∧ t.events = s.events ∧ t.cfg = s.cfg := by
  cases i
  case jmp | jn | jz | jp | jv | jnv | jzx | jnz | jc | jnc | jb | jnb | extJmp =>
    cases h
    rw [State.branchIf_eq]
    exact ⟨rfl, rfl, rfl, rfl⟩
  all_goals cases h; exact ⟨rfl, rfl, rfl, rfl⟩

/-- The memory of every instruction stays in canonical form. -/
theorem exec_mem_wf {i : Instr} {s t : State} (h : exec i s = .next t) (hm : s.mem.wf) : t.mem.wf := by
  rcases exec_mem h with ⟨a, _, e⟩ | ⟨_, e⟩ <;> rw [e]
  · exact Memory.write_wf _ _ _ (BitVec.isLt _) hm
  · exact hm

/-! ### The fetch -/

/-- The window of bytes a fetch sees at an address (20_memory.md R42, 44_engine.md R145). -/
theorem State.fetchWindow_eq (s : State) (h : s.pc.toNat ≤ 255) :
    s.fetchWindow = s.memRead (s.pc.setWidth 8) ::
      if s.pc.toNat ≤ 254 then
        s.memRead (BitVec.ofNat 8 (s.pc.toNat + 1)) ::
          if s.pc.toNat ≤ 253 then [s.memRead (BitVec.ofNat 8 (s.pc.toNat + 2))] else []
      else [] := by
  have e : BitVec.ofNat 8 s.pc.toNat = s.pc.setWidth 8 := BitVec.eq_of_toNat_eq (by simp)
  have h0 : s.pc.toNat < 256 := by omega
  by_cases h1 : s.pc.toNat ≤ 254
  · by_cases h2 : s.pc.toNat ≤ 253
    · simp [State.fetchWindow, List.range_succ, e, h0, h1, h2,
        show s.pc.toNat + 1 < 256 by omega, show s.pc.toNat + 2 < 256 by omega]
    · simp [State.fetchWindow, List.range_succ, e, h0, h1, h2,
        show s.pc.toNat + 1 < 256 by omega, show ¬ s.pc.toNat + 2 < 256 by omega]
  · simp [State.fetchWindow, List.range_succ, e, h0, h1,
      show ¬ s.pc.toNat + 1 < 256 by omega, show ¬ s.pc.toNat + 2 < 256 by omega]

/-- The window reaches to the end of memory at most. -/
theorem State.fetchWindow_length (s : State) (h : s.pc.toNat ≤ 255) :
    s.fetchWindow.length = min 3 (256 - s.pc.toNat) := by
  rw [State.fetchWindow_eq s h]
  split_ifs <;> simp <;> omega

/-- A fetch that gives an instruction: the pc is an address, the bytes there decode to the instruction, and
it ends inside memory. -/
theorem State.fetchDecode_ok {s : State} {i : Instr} (h : s.fetchDecode = .ok i) :
    s.pc.toNat ≤ 255 ∧ i.wf = true ∧ s.pc.toNat + i.length ≤ 256 ∧
    ∃ rest, decode s.cfg.opcodeMap s.fetchWindow = .ok (i, rest) := by
  unfold State.fetchDecode at h
  split at h
  · cases h
  · rename_i hp
    have hp' : s.pc.toNat ≤ 255 := by omega
    cases hd : decode s.cfg.opcodeMap s.fetchWindow with
    | error e => rw [hd] at h; cases e <;> cases h
    | ok p =>
      obtain ⟨j, rest⟩ := p
      rw [hd] at h
      obtain rfl : j = i := by simpa using h
      have hl := State.fetchWindow_length s hp'
      rw [State.fetchWindow_eq s hp'] at hd hl
      obtain ⟨hw, hlen⟩ := decode_ok_wf_length hd
      exact ⟨hp', hw, by omega, rest, rfl⟩

/-- The fetch at an address is the decoder's answer on the window; only truncation fails there. -/
theorem State.fetchDecode_of_decode {s : State} (h : s.pc.toNat ≤ 255) {i : Instr} {rest : List Byte}
    (hd : decode s.cfg.opcodeMap s.fetchWindow = .ok (i, rest)) : s.fetchDecode = .ok i := by
  simp [State.fetchDecode, hd, show ¬ 255 < s.pc.toNat by omega]

theorem State.fetchDecode_of_truncated {s : State} (h : s.pc.toNat ≤ 255)
    (hd : decode s.cfg.opcodeMap s.fetchWindow = .error .truncatedBranch) :
    s.fetchDecode = .error .truncatedBranch := by
  simp [State.fetchDecode, hd, show ¬ 255 < s.pc.toNat by omega]

theorem State.fetchDecode_of_gt {s : State} (h : 255 < s.pc.toNat) :
    s.fetchDecode = .error .pcOutOfRange := by
  simp [State.fetchDecode, h]

/-- A list that holds a first byte never fails for want of one. -/
theorem decode_ne_noByte (m : OpcodeMap) (b0 : Byte) (bytes : List Byte) :
    decode m (b0 :: bytes) ≠ .error .noByte := by
  have hs : ∀ mk l, decodeShortBranch mk l ≠ .error .noByte := by
    intro mk l; cases l <;> simp [decodeShortBranch]
  have he : ∀ l, decodeExtendedBranch l ≠ .error .noByte := by
    intro l
    match l with
    | [] => simp [decodeExtendedBranch]
    | [_] => simp [decodeExtendedBranch]
    | _ :: _ :: _ => simp [decodeExtendedBranch]
  intro h
  cases hc : m.classOf (opcodeOf b0) with
  | none => simp [decode, hc] at h
  | some c => cases c <;> simp [decode, hc, hs, he] at h

/-- A fetch that faults: past the end, or a truncated branch inside memory. -/
theorem State.fetchDecode_error {s : State} {k : Fault} (h : s.fetchDecode = .error k) :
    (255 < s.pc.toNat ∧ k = .pcOutOfRange) ∨
    (s.pc.toNat ≤ 255 ∧ k = .truncatedBranch ∧
      decode s.cfg.opcodeMap s.fetchWindow = .error .truncatedBranch) := by
  by_cases hp : 255 < s.pc.toNat
  · rw [State.fetchDecode_of_gt hp] at h
    cases h
    exact .inl ⟨hp, rfl⟩
  · have hp' : s.pc.toNat ≤ 255 := by omega
    cases hd : decode s.cfg.opcodeMap s.fetchWindow with
    | ok p => rw [State.fetchDecode_of_decode (i := p.1) (rest := p.2) hp' hd] at h; cases h
    | error e =>
      cases e with
      | noByte =>
        rw [State.fetchWindow_eq s hp'] at hd
        exact absurd hd (decode_ne_noByte _ _ _)
      | truncatedBranch =>
        rw [State.fetchDecode_of_truncated hp' hd] at h
        cases h
        exact .inr ⟨hp', rfl, rfl⟩

/-! ### The end of a step -/

/-- Steps 6 and 7 (44_engine.md R148, R149): everything they can do. -/
theorem State.loopCheck_cases (t : State) (p : Pc) (hp : p.toNat < 256) :
    ((t.visits t.pc.toNat = true ∨ t.pc = p) ∧
      t.loopCheck p = (t.markVisited p.toNat).stop .loopDetected) ∨
    ((t.visits t.pc.toNat = false ∧ t.pc ≠ p) ∧
      ((t.cfg.stepLimit ≤ t.steps + 1 ∧
          t.loopCheck p = (t.markVisited p.toNat).countStep.stop .stepLimitReached) ∨
       (t.steps + 1 < t.cfg.stepLimit ∧ t.loopCheck p = (t.markVisited p.toNat).countStep))) := by
  have hv := State.visits_markVisited t p.toNat t.pc.toNat hp
  by_cases h : t.visits t.pc.toNat = true ∨ t.pc = p
  · have : (t.markVisited p.toNat).visits t.pc.toNat = true := by
      rw [hv]
      rcases h with h | rfl <;> simp [*]
    exact .inl ⟨h, by simp [State.loopCheck, this]⟩
  · obtain ⟨h1, h2⟩ := not_or.mp h
    have h1 : t.visits t.pc.toNat = false := by simpa using h1
    have h3 : t.pc.toNat ≠ p.toNat := fun e => h2 (BitVec.eq_of_toNat_eq e)
    have : (t.markVisited p.toNat).visits t.pc.toNat = false := by
      rw [hv]
      simp [h1, h3]
    refine .inr ⟨⟨h1, h2⟩, ?_⟩
    by_cases hl : t.cfg.stepLimit ≤ t.steps + 1
    · exact .inl ⟨hl, by simp [State.loopCheck, State.stepCeiling, this, hl]⟩
    · exact .inr ⟨by omega, by simp [State.loopCheck, State.stepCeiling, this, hl]⟩

/-- The end of the step of an instruction that a Running machine ran: the illegal opcode's fault stands,
HLT ends it with an EVENT, any other instruction goes through steps 6 and 7. -/
theorem retire_cases {s t : State} {i : Instr} (hs : s.status = .running) (h : exec i s = .next t) :
    (i = .unassigned ∧ retire s i t = t) ∨
    (i = .hlt ∧ retire s i t = t.emit (stepEvent s i t)) ∨
    (i ≠ .unassigned ∧ i ≠ .hlt ∧ t.status = .running ∧
      retire s i t = (t.emit (stepEvent s i t)).loopCheck s.pc) := by
  have e := exec_status h
  by_cases hh : i = .hlt
  · subst hh
    exact .inr (.inl ⟨rfl, by simp [retire, e]⟩)
  · by_cases hu : i = .unassigned
    · subst hu
      exact .inl ⟨rfl, by simp [retire, e]⟩
    · have e' : t.status = .running := by rw [e, if_neg hh, if_neg hu, hs]
      exact .inr (.inr ⟨hu, hh, e', by simp [retire, e']⟩)

/-- The end of a step touches neither the Processor State, memory, the fault record nor the configuration. -/
theorem retire_keeps {s t : State} {i : Instr} (hs : s.status = .running) (hp : s.pc.toNat < 256)
    (h : exec i s = .next t) :
    (retire s i t).pc = t.pc ∧ (retire s i t).ac = t.ac ∧ (retire s i t).flags = t.flags ∧
    (retire s i t).mem = t.mem ∧ (retire s i t).faultRecord = t.faultRecord ∧
    (retire s i t).cfg = t.cfg := by
  rcases retire_cases hs h with ⟨_, e⟩ | ⟨_, e⟩ | ⟨_, _, _, e⟩
  · simp [e]
  · simp [e]
  · rcases State.loopCheck_cases (t.emit (stepEvent s i t)) s.pc hp with ⟨_, e'⟩ | ⟨_, ⟨_, e'⟩ | ⟨_, e'⟩⟩ <;>
      simp [e, e']

/-- The operand an EVENT shows for the shift group is the selector, whichever operation it names. -/
theorem eventOperand_decodeShift (raw : Byte) (sel : BitVec 2) :
    eventOperand raw (decodeShift sel) = .selector (selectorOf raw) := by
  have h : decodeShift sel = .shr ∨ decodeShift sel = .shl ∨ decodeShift sel = .ror ∨ decodeShift sel = .rol := by
    revert sel; decide
  obtain h | h | h | h := h <;> rw [h] <;> rfl

/-- The operand an EVENT shows for an extended branch is its subcode and its target, for every subcode. -/
theorem eventOperand_decodeExtended (raw sub t : Byte) :
    eventOperand raw (decodeExtended sub t) = .subcodeTarget sub t := by
  unfold decodeExtended
  split <;> simp [eventOperand] <;> exact BitVec.eq_of_toNat_eq (by simp [*])

/-- The end of a step appends the EVENT, but for the illegal opcode, which appends none. -/
theorem retire_events {s t : State} {i : Instr} (hs : s.status = .running) (hp : s.pc.toNat < 256)
    (h : exec i s = .next t) :
    (retire s i t).events = if i = .unassigned then s.events else s.events ++ [stepEvent s i t] := by
  have ev : t.events = s.events := (exec_bookkeeping h).2.2.1
  rcases retire_cases hs h with ⟨rfl, e⟩ | ⟨rfl, e⟩ | ⟨hu, _, _, e⟩
  · simp [e, ev]
  · simp [e, ev]
  · rcases State.loopCheck_cases (t.emit (stepEvent s i t)) s.pc hp with ⟨_, e'⟩ | ⟨_, ⟨_, e'⟩ | ⟨_, e'⟩⟩ <;>
      simp [e, e', ev, hu]

/-! ### The step -/

/-- Everything a step that answers a next state can have done. -/
theorem step_cases {s u : State} (h : step s = .next u) :
    (s.status ≠ .running ∧ u = s) ∨
    (s.status = .running ∧ s.cfg.refusal? = none ∧
      ((∃ k, s.fetchDecode = .error k ∧ u = s.raise k) ∨
       ∃ i t, s.fetchDecode = .ok i ∧ exec i s = .next t ∧ u = retire s i t)) := by
  unfold step at h
  by_cases hs : s.status = .running
  · rw [if_neg (not_not.mpr hs)] at h
    cases hr : s.cfg.refusal? with
    | some r => simp [hr] at h
    | none =>
      cases hf : s.fetchDecode with
      | error k =>
        simp only [hr, hf, Host.Outcome.next.injEq] at h
        exact .inr ⟨hs, rfl, .inl ⟨k, rfl, h.symm⟩⟩
      | ok i =>
        obtain ⟨t, ht⟩ := exec_total i s
        simp only [hr, hf, ht, Host.Outcome.next.injEq] at h
        exact .inr ⟨hs, rfl, .inr ⟨i, t, rfl, ht, h.symm⟩⟩
  · rw [if_pos hs] at h
    exact .inl ⟨hs, (Host.Outcome.next.inj h).symm⟩

/-- A terminal state stays. -/
theorem step_of_terminal {s : State} (h : s.status ≠ .running) : step s = .next s := if_pos h

/-- A Running machine whose fetch faults raises that fault. -/
theorem step_of_error {s : State} (h : s.Ready) {k : Fault} (hf : s.fetchDecode = .error k) :
    step s = .next (s.raise k) := by
  have hr : s.cfg.refusal? = none := Config.refusal?_eq_none.mpr ⟨h.2.1, h.2.2.1⟩
  simp [step, h.1, hr, hf]

/-- A Running machine runs the instruction it fetches and ends the step. -/
theorem step_of_ok {s t : State} (h : s.Ready) {i : Instr} (hf : s.fetchDecode = .ok i)
    (ht : exec i s = .next t) : step s = .next (retire s i t) := by
  have hr : s.cfg.refusal? = none := Config.refusal?_eq_none.mpr ⟨h.2.1, h.2.2.1⟩
  simp [step, h.1, hr, hf, ht]

/-- Under a configuration the spec admits, every step has a next state. -/
theorem step_total {s : State} (h : s.cfg.wf) : ∃ u, step s = .next u := by
  by_cases hs : s.status = .running
  · cases hf : s.fetchDecode with
    | error k => exact ⟨_, step_of_error ⟨hs, h⟩ hf⟩
    | ok i =>
      obtain ⟨t, ht⟩ := exec_total i s
      exact ⟨_, step_of_ok ⟨hs, h⟩ hf ht⟩
  · exact ⟨s, step_of_terminal hs⟩

end Sys2Proof.Machine
end

