-- ==== Sys2Proof/Laws/Interface.lean ====
section
/-! SUPPORT. The laws of the block boundary: RUN step by step, RESET, the STATUS code. -/

namespace Sys2Proof.Machine

/-- No step left. -/
theorem run_zero (s : State) : Sys2Proof.core.run 0 s = .next s := rfl

/-- One step more. -/
theorem run_succ {s u : State} (n : Nat) (h : step s = .next u) :
    Sys2Proof.core.run (n + 1) s = Sys2Proof.core.run n u := by
  have h' : Sys2Proof.core.step s = .next u := h
  exact (Host.Core.run.eq_2 Sys2Proof.core s n).trans (by rw [h'])

/-- The STATUS code tells the statuses apart and is never 7 (44_engine.md R159). -/
theorem Status.code_injective : ∀ x y : Status, x.code = y.code → x = y := by
  rintro (_ | _ | _ | _ | (_ | _ | _)) (_ | _ | _ | _ | (_ | _ | _)) h <;>
    first
    | rfl
    | exact absurd h (by decide)

theorem Status.code_ne_seven (x : Status) : x.code ≠ 7 := by
  cases x <;> first | decide | (rename_i k; cases k <;> decide)

end Sys2Proof.Machine
end

