-- ==== Sys2Proof/Laws/PerInstr.lean ====
section
/-! SUPPORT. A family over the syntax: the encoder writes as many bytes as the instruction is long, under
every OPCODE_MAP (30_encoding.md R60). -/

namespace Sys2Proof.Laws.EncodedLength

/-- The encoded bytes of `i` number its length. -/
def Statement (i : Instr) : Prop := ∀ m : OpcodeMap, (encode m i).length = i.length

theorem nop : Statement .nop := fun _ => rfl
theorem not : Statement .not := fun _ => rfl
theorem sta (a : Nibble) : Statement (.sta a) := fun _ => rfl
theorem lda (a : Nibble) : Statement (.lda a) := fun _ => rfl
theorem add (a : Nibble) : Statement (.add a) := fun _ => rfl
theorem or (a : Nibble) : Statement (.or a) := fun _ => rfl
theorem and (a : Nibble) : Statement (.and a) := fun _ => rfl
theorem sub (a : Nibble) : Statement (.sub a) := fun _ => rfl
theorem jmp (t : Byte) : Statement (.jmp t) := fun _ => rfl
theorem jn (t : Byte) : Statement (.jn t) := fun _ => rfl
theorem jz (t : Byte) : Statement (.jz t) := fun _ => rfl
theorem jp (t : Byte) : Statement (.jp t) := fun _ => rfl
theorem jv (t : Byte) : Statement (.jv t) := fun _ => rfl
theorem jnv (t : Byte) : Statement (.jnv t) := fun _ => rfl
theorem jzx (t : Byte) : Statement (.jzx t) := fun _ => rfl
theorem jnz (t : Byte) : Statement (.jnz t) := fun _ => rfl
theorem jc (t : Byte) : Statement (.jc t) := fun _ => rfl
theorem jnc (t : Byte) : Statement (.jnc t) := fun _ => rfl
theorem jb (t : Byte) : Statement (.jb t) := fun _ => rfl
theorem jnb (t : Byte) : Statement (.jnb t) := fun _ => rfl
theorem extJmp (sub t : Byte) : Statement (.extJmp sub t) := fun _ => rfl
theorem shr : Statement .shr := fun _ => rfl
theorem shl : Statement .shl := fun _ => rfl
theorem ror : Statement .ror := fun _ => rfl
theorem rol : Statement .rol := fun _ => rfl
theorem hlt : Statement .hlt := fun _ => rfl
theorem unassigned : Statement .unassigned := fun _ => rfl

end Sys2Proof.Laws.EncodedLength
end

