-- ==== Sys2Proof/Tests/Slice0.lean ====
section
/-! SUPPORT. The model's own tests: well-formedness, the words of the encoding tables, single steps taken from
95_test_vectors.md, and a witness for the hypotheses of each statement. -/

namespace Sys2Proof.Machine.Tests

open Sys2Proof

/-- Flags from the string NZVCB of 95_test_vectors.md section 0. -/
def flagsOf (f : BitVec 5) : Flags :=
  { n := f.getLsbD 4, z := f.getLsbD 3, v := f.getLsbD 2, c := f.getLsbD 1, b := f.getLsbD 0 }

/-- The reset state but for pc, ac, flags and the cells listed. -/
def st (pc : Pc) (ac : Byte) (f : BitVec 5) (cells : Memory) : State :=
  { State.reset with pc := pc, ac := ac, flags := flagsOf f, mem := cells }

/-- The same under PC_WRAP. -/
def stWrap (pc : Pc) (ac : Byte) (f : BitVec 5) (cells : Memory) : State :=
  { st pc ac f cells with cfg := { Config.default with pcWrap := true } }

/-- The state after one step. -/
def after (s : State) : Option State :=
  match step s with
  | .next t => some t
  | .fault _ | .refused _ => none

/-- pc, ac and NZVCB after one step. -/
def psAfter (s : State) : Option (Nat × Nat × BitVec 5) :=
  (after s).map fun t => (t.pc.toNat, t.ac.toNat, t.flags.vector)

/-- Status and pc after one step. -/
def endAfter (s : State) : Option (Status × Nat) :=
  (after s).map fun t => (t.status, t.pc.toNat)

/-! ## Well-formedness: an ill-formed term for each check -/

theorem test_wf_refuses_skipped_branch_with_a_condition : (Instr.extJmp 7 40).wf = false := by decide
theorem test_wf_accepts_skipped_branch : (Instr.extJmp 8 40).wf = true := by decide
theorem test_wf_refuses_unordered_memory : ¬ Memory.wf [(3, 1), (2, 1)] := by decide
theorem test_wf_refuses_zero_byte_in_memory : ¬ Memory.wf [(3, 0)] := by decide
theorem test_wf_refuses_address_256 : ¬ Memory.wf [(256, 1)] := by decide
theorem test_wf_refuses_shared_nibble : OpcodeMap.wf { OpcodeMap.default with nop := 0x8 } = false := by decide
theorem test_wf_refuses_step_limit_zero : ¬ Config.wf { Config.default with stepLimit := 0 } := by decide
theorem test_wf_accepts_default : Config.default.wf := by decide
theorem test_step_refuses_step_limit_zero :
    step { State.reset with cfg := { Config.default with stepLimit := 0 } } = .refused .stepLimitBelowOne := rfl
theorem test_step_refuses_shared_nibble :
    step { State.reset with
      cfg := { Config.default with opcodeMap := { OpcodeMap.default with nop := 0x8 } } } =
      .refused .opcodeMapIllFormed := rfl

/-! ## Words written out from 30_encoding.md R62, R65, R66 (95_test_vectors.md section 2.2) -/

theorem test_decode_nop : decode .default [0b0000_0111#8] = .ok (.nop, []) := rfl
theorem test_decode_sta : decode .default [0b0001_1111#8] = .ok (.sta 15, []) := rfl
theorem test_decode_lda : decode .default [0b0010_1010#8] = .ok (.lda 10, []) := rfl
theorem test_decode_add : decode .default [0b0011_0101#8] = .ok (.add 5, []) := rfl
theorem test_decode_or : decode .default [0b0100_1010#8] = .ok (.or 10, []) := rfl
theorem test_decode_and : decode .default [0b0101_1100#8] = .ok (.and 12, []) := rfl
theorem test_decode_not : decode .default [0b0110_1111#8] = .ok (.not, []) := rfl
theorem test_decode_sub : decode .default [0b0111_1110#8] = .ok (.sub 14, []) := rfl
theorem test_decode_jmp : decode .default [0b1000_1111#8, 0b1100_1000#8] = .ok (.jmp 200, []) := rfl
theorem test_decode_jn : decode .default [0b1001_1100#8, 0b0010_1000#8] = .ok (.jn 40, []) := rfl
theorem test_decode_jz : decode .default [0b1010_0000#8, 0b0010_1000#8] = .ok (.jz 40, []) := rfl
theorem test_decode_jp : decode .default [0b1011_0011#8, 0b0010_1000#8] = .ok (.jp 40, []) := rfl
theorem test_decode_jv : decode .default [0b1100_0000#8, 0b0000_0000#8, 40] = .ok (.jv 40, []) := rfl
theorem test_decode_jnv : decode .default [0b1100_0000#8, 0b0000_0001#8, 40] = .ok (.jnv 40, []) := rfl
theorem test_decode_jzx : decode .default [0b1100_0111#8, 0b0000_0010#8, 40] = .ok (.jzx 40, []) := rfl
theorem test_decode_jnz : decode .default [0b1100_0000#8, 0b0000_0011#8, 40] = .ok (.jnz 40, []) := rfl
theorem test_decode_jc : decode .default [0b1100_0000#8, 0b0000_0100#8, 40] = .ok (.jc 40, []) := rfl
theorem test_decode_jnc : decode .default [0b1100_0000#8, 0b0000_0101#8, 40] = .ok (.jnc 40, []) := rfl
theorem test_decode_jb : decode .default [0b1100_0000#8, 0b0000_0110#8, 40] = .ok (.jb 40, []) := rfl
theorem test_decode_jnb : decode .default [0b1100_0000#8, 0b0000_0111#8, 40] = .ok (.jnb 40, []) := rfl
theorem test_decode_extJmp_8 : decode .default [0xC0#8, 0b0000_1000#8, 40] = .ok (.extJmp 8 40, []) := rfl
theorem test_decode_extJmp_130 : decode .default [0xC0#8, 0b1000_0010#8, 40] = .ok (.extJmp 130 40, []) := rfl
theorem test_decode_shr : decode .default [0b1110_0100#8] = .ok (.shr, []) := rfl
theorem test_decode_shl : decode .default [0b1110_1001#8] = .ok (.shl, []) := rfl
theorem test_decode_ror : decode .default [0b1110_1110#8] = .ok (.ror, []) := rfl
theorem test_decode_rol : decode .default [0b1110_1111#8] = .ok (.rol, []) := rfl
theorem test_decode_hlt : decode .default [0b1111_1001#8] = .ok (.hlt, []) := rfl
theorem test_decode_unassigned : decode .default [0b1101_1111#8] = .ok (.unassigned, []) := rfl
theorem test_decode_truncated_short : decode .default [0x80#8] = .error .truncatedBranch := rfl
theorem test_decode_truncated_extended : decode .default [0xC0#8, 0x09#8] = .error .truncatedBranch := rfl

/-- The rows of spec/opcode_table.json with 8 bits, each with every ignored and operand bit 0. -/
theorem test_table_words_of_one_byte :
    [0x00, 0x60, 0x10, 0x20, 0x30, 0x40, 0x50, 0x70, 0x80, 0x90, 0xA0, 0xB0,
      0xE0, 0xE1, 0xE2, 0xE3, 0xF0, 0xD0].map (decodeTableWord 8) =
    [.nop, .not, .sta 0, .lda 0, .add 0, .or 0, .and 0, .sub 0, .jmp 0, .jn 0, .jz 0, .jp 0,
      .shr, .shl, .ror, .rol, .hlt, .unassigned].map some := by decide

/-- The rows JV to JNB, 16 bits with byte 0 the high one (log entry 15). -/
theorem test_table_words_of_two_bytes :
    [0xC000, 0xC001, 0xC002, 0xC003, 0xC004, 0xC005, 0xC006, 0xC007].map (decodeTableWord 16) =
    [.jv 0, .jnv 0, .jzx 0, .jnz 0, .jc 0, .jnc 0, .jb 0, .jnb 0].map some := by decide

theorem test_withFetchWord_runs_the_word :
    endAfter (State.reset.withFetchWord 16 0xC001) = some (.loopDetected, 0) ∧
    endAfter (State.reset.withFetchWord 8 0x33) = some (.running, 1) ∧
    endAfter (State.reset.withFetchWord 8 0xD0) = some (.faulted .unknownBranchOpcode, 0) := by decide

/-! ## Single steps: ALU (95_test_vectors.md section 2.3) -/

theorem test_nop : psAfter (st 16 85 0b10111 [(16, 0x07)]) = some (17, 85, 0b10111) := by decide
theorem test_lda_zero_keeps_b :
    psAfter (st 16 85 0b10111 [(16, 0x22)]) = some (17, 0, 0b01001) := by decide
theorem test_lda_200_clears_v :
    psAfter (st 16 0 0b01111 [(2, 200), (16, 0x22)]) = some (17, 200, 0b10001) := by decide
theorem test_sta_15 :
    (after (st 16 171 0b10111 [(16, 0x1F)])).map (fun t => (t.mem, t.flags.vector)) =
      some ([(15, 171), (16, 0x1F)], 0b10111) := by decide
theorem test_sta_zero_removes_the_entry :
    (after (st 16 0 0b01000 [(0, 128), (16, 0x10)])).map (fun t => (t.mem, t.pc.toNat)) =
      some ([(16, 0x10)], 17) := by decide
theorem test_add_wraps :
    psAfter (st 16 200 0b00001 [(3, 100), (16, 0x33)]) = some (17, 44, 0b00111) := by decide
theorem test_add_v_is_not_signed_overflow :
    psAfter (st 16 129 0 [(3, 1), (16, 0x33)]) = some (17, 130, 0b10100) := by decide
theorem test_sub_borrows :
    psAfter (st 16 0 0b00110 [(3, 1), (16, 0x73)]) = some (17, 255, 0b10001) := by decide
theorem test_sub_below_minus_128 :
    psAfter (st 16 0 0 [(3, 129), (16, 0x73)]) = some (17, 127, 0b00101) := by decide
theorem test_or : psAfter (st 16 18 0 [(5, 33), (16, 0x45)]) = some (17, 51, 0) := by decide
theorem test_or_keeps_b : psAfter (st 16 15 0b00111 [(5, 240), (16, 0x45)]) = some (17, 255, 0b10001) := by decide
theorem test_and : psAfter (st 16 60 0b10000 [(5, 15), (16, 0x55)]) = some (17, 12, 0) := by decide
theorem test_and_zero : psAfter (st 16 240 0b00111 [(5, 15), (16, 0x55)]) = some (17, 0, 0b01001) := by decide
theorem test_not : psAfter (st 16 15 0b00111 [(16, 0x60)]) = some (17, 240, 0b10001) := by decide

/-! ## Single steps: shifts (95_test_vectors.md section 2.4) -/

theorem test_shr : psAfter (st 16 0xFF 0b00101 [(16, 0xE0)]) = some (17, 0x7F, 0b00011) := by decide
theorem test_shl : psAfter (st 16 0xFF 0b00001 [(16, 0xE1)]) = some (17, 0xFE, 0b10011) := by decide
theorem test_ror_takes_the_carry :
    psAfter (st 16 0x81 0b00010 [(16, 0xE2)]) = some (17, 0xC0, 0b10010) := by decide
theorem test_ror_without_carry : psAfter (st 16 0x81 0 [(16, 0xE2)]) = some (17, 0x40, 0b00010) := by decide
theorem test_rol_takes_the_carry :
    psAfter (st 16 0x40 0b00010 [(16, 0xE3)]) = some (17, 0x81, 0b10000) := by decide
theorem test_rol_without_carry : psAfter (st 16 0xFF 0b00101 [(16, 0xE3)]) = some (17, 0xFE, 0b10011) := by decide

/-! ## Single steps: branches (95_test_vectors.md section 2.5) -/

theorem test_jmp : endAfter (st 20 0 0b11111 [(20, 0x80), (21, 40)]) = some (.running, 40) := by decide
theorem test_jmp_to_itself : endAfter (st 100 0 0 [(100, 0x80), (101, 100)]) = some (.loopDetected, 100) := by
  decide
theorem test_jn_taken : endAfter (st 20 0 0b10000 [(20, 0x90), (21, 40)]) = some (.running, 40) := by decide
theorem test_jn_past_the_end : endAfter (st 254 0 0 [(254, 0x90), (255, 7)]) = some (.running, 256) := by decide
theorem test_jz_taken : endAfter (st 20 0 0b01000 [(20, 0xA0), (21, 40)]) = some (.running, 40) := by decide
theorem test_jz_skipped : endAfter (st 20 0 0b10111 [(20, 0xA0), (21, 40)]) = some (.running, 22) := by decide
theorem test_jp_taken : endAfter (st 20 0 0b00111 [(20, 0xB0), (21, 40)]) = some (.running, 40) := by decide
theorem test_jp_zero_skipped : endAfter (st 20 0 0b01000 [(20, 0xB0), (21, 40)]) = some (.running, 22) := by decide

/-- The pc after an extended branch at 10 to 40, for each subcode, with all flags clear and all set. -/
theorem test_extended_branches :
    [0, 1, 2, 3, 4, 5, 6, 7, 8, 130, 255].map (fun sub : Byte =>
      ((after (st 10 0 0 (Memory.ofBytes [] |>.write 10 0xC0 |>.write 11 sub |>.write 12 40))).map (·.pc.toNat),
       (after (st 10 0 0b11111 (Memory.ofBytes [] |>.write 10 0xC0 |>.write 11 sub |>.write 12 40))).map
         (·.pc.toNat))) =
    [(some 13, some 40), (some 40, some 13), (some 13, some 40), (some 40, some 13),
     (some 13, some 40), (some 40, some 13), (some 13, some 40), (some 40, some 13),
     (some 13, some 13), (some 13, some 13), (some 13, some 13)] := by decide

/-- Each extended branch reads its own flag: V, Z, C and B set alone in turn, subcodes 0, 2, 4 and 6. -/
theorem test_extended_branches_read_their_flag :
    [0b00100, 0b01000, 0b00010, 0b00001].map (fun f : BitVec 5 =>
      [0, 2, 4, 6].map (fun sub : Byte =>
        (after (st 10 0 f (Memory.ofBytes [] |>.write 10 0xC0 |>.write 11 sub |>.write 12 40))).map
          (·.pc.toNat))) =
    [[some 40, some 13, some 13, some 13], [some 13, some 40, some 13, some 13],
     [some 13, some 13, some 40, some 13], [some 13, some 13, some 13, some 40]] := by decide

/-! ## Single steps: the engine (95_test_vectors.md sections 1 and 2.6) -/

theorem test_hlt_at_255 : endAfter (st 255 0 0 [(255, 0xF0)]) = some (.halted, 256) := by decide
theorem test_hlt_at_255_wraps : endAfter (stWrap 255 0 0 [(255, 0xF0)]) = some (.halted, 0) := by decide
theorem test_pc_256_faults : endAfter (st 256 0 0 []) = some (.faulted .pcOutOfRange, 256) := by decide
theorem test_jmp_at_255_faults_with_wrap :
    endAfter (stWrap 255 18 0b10001 [(255, 0x80)]) = some (.faulted .truncatedBranch, 255) := by decide
theorem test_jn_not_taken_at_255_faults :
    endAfter (st 255 18 0b00001 [(255, 0x90)]) = some (.faulted .truncatedBranch, 255) := by decide
theorem test_extJmp_at_254_faults :
    endAfter (st 254 18 0b10001 [(254, 0xC0)]) = some (.faulted .truncatedBranch, 254) := by decide
theorem test_unassigned_at_255 :
    (after (st 255 18 0b10001 [(255, 0xDF)])).map (fun t => (t.status, t.faultRecord, t.ac)) =
      some (.faulted .unknownBranchOpcode, some { kind := .unknownBranchOpcode, pc := 255 }, 18) := by decide
theorem test_step_limit_one :
    (after { st 0 0 0 [] with cfg := { Config.default with stepLimit := 1 } }).map
      (fun t => (t.status, t.steps, t.pc.toNat)) = some (.stepLimitReached, 1, 1) := by decide
theorem test_event_of_jmp :
    (after (st 0 0 0 [(0, 0x80), (1, 200)])).map (·.events) =
      some [{ pcPre := 0, raw := 0x80, opcode := 8, operand := .target 200, postPc := 200, postAc := 0,
              postFlags := 0 }] := by decide
/-- The operand of the EVENT of SHL with bits 3 and 2 set to 2, of EXT_JMP 130, 40 and of HLT with low
nibble 9: 44_engine.md R161. -/
theorem test_event_operands :
    [st 0 0 0 [(0, 0xE9)], st 10 0 0 [(10, 0xC0), (11, 0x82), (12, 40)], st 0 0 0 [(0, 0xF9)]].map
      (fun s => (after s).map (·.events.map (·.operand))) =
    [some [.selector 1], some [.subcodeTarget 0x82 40], some [.nibble 9]] := by decide
theorem test_load_image_waits_for_the_run :
    (State.reset.loadImage [(0, 0xF0)]).cfg.image = [] ∧
    ((State.reset.stop .halted).loadImage [(0, 0xF0)]).resetCommand.mem = [(0, 0xF0)] := by decide
theorem test_run_result_of_hlt :
    (after (st 0 7 0b00110 [(0, 0xF0)])).bind State.runResult =
      some { status := 1, fault := none, pc := 1, ac := 7, flags := 0b00110 } := by decide


/-! ## Witnesses: for each statement with hypotheses, a state and operands that meet them together -/

/-- The state after reset over an image: 70_reset_and_hazards.md R190. -/
def boot (image : Memory) : State := State.resetWith { Config.default with image := image }

theorem witness_DecodeInvertsEncode :
    OpcodeMap.default.wf = true ∧ (Instr.extJmp 255 0).wf = true ∧ (Instr.extJmp 8 0).wf = true ∧
    Instr.unassigned.wf = true := by decide

theorem witness_DecoderTakesTheLengthOfTheClass :
    OpcodeMap.default.wf = true ∧
    decode OpcodeMap.default (0xC0#8 :: [9, 200, 7]) = .ok (.extJmp 9 200, [7]) := ⟨by decide, rfl⟩

/-- For the shift group, with bits 3 and 2 different. -/
theorem witness_IgnoredBitsNeverMatter :
    (∀ c ∈ [OpClass.sta, .lda, .add, .or, .and, .sub], OpcodeMap.default.classOf 0xE#4 ≠ some c) ∧
    (OpcodeMap.default.classOf 0xE#4 = some .shift → (1#4).toNat % 4 = (9#4).toNat % 4) := by decide

/-- The same for NOP, where every low bit may differ. -/
theorem witness_IgnoredBitsNeverMatter_nop :
    (∀ c ∈ [OpClass.sta, .lda, .add, .or, .and, .sub], OpcodeMap.default.classOf 0x0#4 ≠ some c) ∧
    (OpcodeMap.default.classOf 0x0#4 = some .shift → (1#4).toNat % 4 = (2#4).toNat % 4) := by decide

/-- The premise `m.wf` of ShiftSelectorPicksTheOperation, SubcodeByteSelectsTheCondition and the decoding
halves of the result statements. -/
theorem witness_opcode_map : OpcodeMap.default.wf = true := by decide

/-- Each way of DecodingFailsExactlyOnTruncation: short form, extended form with one byte and none. -/
theorem witness_DecodingFailsExactlyOnTruncation :
    decode OpcodeMap.default (0xB0#8 :: []) = .error .truncatedBranch ∧
    decode OpcodeMap.default (0xC0#8 :: [1]) = .error .truncatedBranch ∧
    decode OpcodeMap.default (0xC0#8 :: []) = .error .truncatedBranch := ⟨rfl, rfl, rfl⟩

theorem witness_InvariantHoldsAtReset : (boot [(0, 0xF0)]).cfg.wf := by decide

/-- The reset state over any of these images meets the invariant. -/
theorem boot_inv (image : Memory) (h : image.wf) : (boot image).Inv where
  cfg := ⟨(by decide : 1 ≤ Config.default.stepLimit), (by decide : Config.default.opcodeMap.wf = true), h⟩
  mem := h
  pc := (by decide : State.reset.pc.toNat ≤ 256)
  pcWrap := (by decide : Config.default.pcWrap = true → State.reset.pc.toNat ≤ 255)
  flags := .inl ⟨rfl, rfl, rfl⟩
  record := rfl
  run := fun _ =>
    (by decide : State.reset.visits State.reset.pc.toNat = false ∧
      State.reset.steps < Config.default.stepLimit ∧ State.reset.steps = State.reset.visitedCount)
  steps := (by decide : State.reset.steps ≤ 256)

theorem witness_StepKeepsTheInvariant :
    ∃ t, (boot [(0, 0x22), (2, 200)]).Inv ∧ step (boot [(0, 0x22), (2, 200)]) = .next t :=
  ⟨_, boot_inv _ (by decide), rfl⟩

theorem witness_StepRunsTheDecodedInstruction :
    ∃ t, (st 255 0 0 [(255, 0xF0)]).Ready ∧ (st 255 0 0 [(255, 0xF0)]).pc.toNat ≤ 255 ∧
      decode (st 255 0 0 [(255, 0xF0)]).cfg.opcodeMap (st 255 0 0 [(255, 0xF0)]).fetchWindow = .ok (.hlt, []) ∧
      exec .hlt (st 255 0 0 [(255, 0xF0)]) = .next t :=
  ⟨_, ⟨rfl, by decide⟩, by decide, rfl, rfl⟩

/-- At the last cell, and for the third byte of the last full window. -/
theorem witness_FetchReadsTheBytesAtThePc :
    ((st 255 0 0 []).pc.toNat ≤ 255 ∧ 0 < 3 ∧ (255#8).toNat = (st 255 0 0 []).pc.toNat + 0) ∧
    ((st 253 0 0 []).pc.toNat ≤ 255 ∧ 2 < 3 ∧ (255#8).toNat = (st 253 0 0 []).pc.toNat + 2) := by decide

/-- JMP 5 at 20, with 5 in Visited. -/
theorem witness_RevisitedAddressEndsTheRun :
    ∃ t, ((st 20 0 0 [(20, 0x80), (21, 5)]).markVisited 5).Ready ∧
      ((st 20 0 0 [(20, 0x80), (21, 5)]).markVisited 5).fetchDecode = .ok (.jmp 5) ∧
      exec (.jmp 5) ((st 20 0 0 [(20, 0x80), (21, 5)]).markVisited 5) = .next t ∧
      ((st 20 0 0 [(20, 0x80), (21, 5)]).markVisited 5).visits t.pc.toNat = true :=
  ⟨_, ⟨rfl, by decide⟩, rfl, rfl, by decide⟩

/-- JMP 20 at 20. -/
theorem witness_RevisitedAddressEndsTheRun_self :
    ∃ t, (st 20 0 0 [(20, 0x80), (21, 20)]).Ready ∧
      (st 20 0 0 [(20, 0x80), (21, 20)]).fetchDecode = .ok (.jmp 20) ∧
      exec (.jmp 20) (st 20 0 0 [(20, 0x80), (21, 20)]) = .next t ∧
      t.pc = (st 20 0 0 [(20, 0x80), (21, 20)]).pc :=
  ⟨_, ⟨rfl, by decide⟩, rfl, rfl, by decide⟩

/-- A NOP, with a ceiling of 1 (met) and of 2 (not met). -/
theorem witness_StepCounterMeetsTheCeiling : ∀ n ∈ [1, 2],
    ∃ t, ({ st 0 0 0 [] with cfg := { Config.default with stepLimit := n } } : State).Ready ∧
      ({ st 0 0 0 [] with cfg := { Config.default with stepLimit := n } } : State).fetchDecode = .ok .nop ∧
      exec .nop { st 0 0 0 [] with cfg := { Config.default with stepLimit := n } } = .next t ∧
      ({ st 0 0 0 [] with cfg := { Config.default with stepLimit := n } } : State).visits t.pc.toNat = false ∧
      t.pc ≠ (0 : Pc) := by
  intro n hn
  simp only [List.mem_cons, List.not_mem_nil, or_false] at hn
  obtain rfl | rfl := hn
  · exact ⟨_, ⟨rfl, by decide⟩, rfl, rfl, by decide, by decide⟩
  · exact ⟨_, ⟨rfl, by decide⟩, rfl, rfl, by decide, by decide⟩

/-- One Ready state for each line of the priority: past the end, truncated, unassigned, HLT, a revisit, the
ceiling, and going on. -/
theorem witness_StopConditionsHaveAFixedPriority :
    (st 256 0 0 []).Ready ∧ (st 255 0 0 [(255, 0x80)]).Ready ∧ (st 16 0 0 [(16, 0xD0)]).Ready ∧
    (st 16 0 0 [(16, 0xF0)]).Ready ∧ (st 20 0 0 [(20, 0x80), (21, 20)]).Ready ∧
    ({ st 0 0 0 [] with cfg := { Config.default with stepLimit := 1 } } : State).Ready ∧
    (st 0 0 0 []).Ready := by
  refine ⟨⟨rfl, ?_⟩, ⟨rfl, ?_⟩, ⟨rfl, ?_⟩, ⟨rfl, ?_⟩, ⟨rfl, ?_⟩, ⟨rfl, ?_⟩, ⟨rfl, ?_⟩⟩ <;> decide

theorem witness_HaltStepEndsTheRun :
    (st 255 0 0 [(255, 0xFF)]).Ready ∧ (st 255 0 0 [(255, 0xFF)]).fetchDecode = .ok .hlt :=
  ⟨⟨rfl, by decide⟩, rfl⟩

/-- An executed step, a faulting step and a step in a terminal state. -/
theorem witness_ExecutedStepEmitsOneEvent :
    (∃ u, step (st 16 5 0 [(16, 0x60)]) = .next u ∧ (st 16 5 0 [(16, 0x60)]).status = .running ∧
      ∀ k, u.status ≠ .faulted k) ∧
    (∃ u, step (st 16 5 0 [(16, 0xD0)]) = .next u ∧ ∃ k, u.status = .faulted k) ∧
    (∃ u, step ((st 16 5 0 []).stop .halted) = .next u ∧ ((st 16 5 0 []).stop .halted).status ≠ .running) :=
  ⟨⟨_, rfl, rfl, by intro k; exact Status.noConfusion⟩, ⟨_, rfl, _, rfl⟩, ⟨_, rfl, by decide⟩⟩

/-- A step that executes, for each form of operand: the selector, a target, a subcode and target in the
last cells, and the low nibble of a basic instruction and of HLT. -/
theorem witness_EventShowsTheOperandOfTheClass :
    ∀ s ∈ [st 0 0 0 [(0, 0xEF)], st 0 0 0 [(0, 0x80), (1, 9)], st 253 0 0 [(253, 0xC0), (254, 9), (255, 7)],
        st 255 0 0 [(255, 0x0F)], st 0 0 0 [(0, 0xF9)]],
      ∃ u, step s = .next u ∧ s.status = .running ∧ ∀ k, u.status ≠ .faulted k := by
  intro s hs
  simp only [List.mem_cons, List.not_mem_nil, or_false] at hs
  obtain rfl | rfl | rfl | rfl | rfl := hs <;> exact ⟨_, rfl, rfl, fun _ => Status.noConfusion⟩

/-- Steps that complete, halt, fault, and do nothing. -/
theorem witness_VisitedGrowsByTheStartAddressOnly :
    (∃ u, step (st 255 0 0 []) = .next u ∧ u.visits 255 = true) ∧
    (∃ u, step (st 255 0 0 [(255, 0xF0)]) = .next u ∧ u.visits 255 = false) ∧
    (∃ u, step (st 255 0 0 [(255, 0x80)]) = .next u ∧ u.visits 255 = false) ∧
    (∃ u, step ((st 255 0 0 []).stop .halted) = .next u ∧ u.visits 255 = false) :=
  ⟨⟨_, rfl, by decide⟩, ⟨_, rfl, by decide⟩, ⟨_, rfl, by decide⟩, ⟨_, rfl, by decide⟩⟩

/-! ### Faults -/

/-- The machine that has run off the end: pc 256 while Running, within the invariant. -/
theorem pastEnd_inv : (st 256 0 0 []).Inv where
  cfg := by decide
  mem := by decide
  pc := by decide
  pcWrap := by decide
  flags := .inl ⟨rfl, rfl, rfl⟩
  record := rfl
  run := fun _ => ⟨by decide, by decide, by decide⟩
  steps := by decide

theorem witness_PcOutOfRangeIsRaisedPastTheEndOnly :
    ((st 256 0 0 []).Ready ∧ 255 < (st 256 0 0 []).pc.toNat) ∧
    (∃ u, (st 256 0 0 []).Inv ∧ (st 256 0 0 []).status = .running ∧ step (st 256 0 0 []) = .next u ∧
      u.status = .faulted .pcOutOfRange) ∧
    (∃ t, exec .unassigned (st 0 0 0 []) = .next t ∧ (st 0 0 0 []).status ≠ .faulted .pcOutOfRange) ∧
    (∃ u, (st 255 0 0 []).Ready ∧ (st 255 0 0 []).pc.toNat ≤ 255 ∧ step (st 255 0 0 []) = .next u ∧
      u.pc.toNat = 256) :=
  ⟨⟨⟨rfl, by decide⟩, by decide⟩, ⟨_, pastEnd_inv, rfl, rfl, rfl⟩, ⟨_, rfl, by decide⟩,
   ⟨_, ⟨rfl, by decide⟩, by decide, rfl, by decide⟩⟩

/-- A short form at 255, an extended form at 254 and at 255. -/
theorem witness_TruncatedBranchIsRaisedAtTheEndOfMemory :
    ((st 255 0 0 [(255, 0x9F)]).Ready ∧ (st 255 0 0 [(255, 0x9F)]).pc.toNat = 255 ∧
      opcodeOf ((st 255 0 0 [(255, 0x9F)]).memRead 255) = OpcodeMap.default.nibble .jn) ∧
    ((st 254 0 0 [(254, 0xC0)]).Ready ∧ (st 254 0 0 [(254, 0xC0)]).pc.toNat = 254 ∧
      opcodeOf ((st 254 0 0 [(254, 0xC0)]).memRead 254) = OpcodeMap.default.nibble .extJmp) ∧
    ((stWrap 255 0 0 [(255, 0xC0)]).Ready ∧ (stWrap 255 0 0 [(255, 0xC0)]).pc.toNat = 255 ∧
      opcodeOf ((stWrap 255 0 0 [(255, 0xC0)]).memRead 255) = OpcodeMap.default.nibble .extJmp) := by
  refine ⟨⟨⟨rfl, ?_⟩, ?_⟩, ⟨⟨rfl, ?_⟩, ?_⟩, ⟨⟨rfl, ?_⟩, ?_⟩⟩ <;> decide

/-- The illegal nibble at 255. -/
theorem witness_UnknownOpcodeIsRaisedAtEveryAddress :
    (st 255 0 0 [(255, 0xDF)]).Ready ∧ (st 255 0 0 [(255, 0xDF)]).pc.toNat ≤ 255 ∧
    ∀ c : OpClass, (st 255 0 0 [(255, 0xDF)]).cfg.opcodeMap.nibble c ≠
      opcodeOf ((st 255 0 0 [(255, 0xDF)]).memRead ((st 255 0 0 [(255, 0xDF)]).pc.setWidth 8)) :=
  ⟨⟨rfl, by decide⟩, by decide, fun c => by cases c <;> decide⟩

theorem witness_FaultingStepChangesOnlyStatusAndRecord :
    ∃ u, (st 255 18 0b10001 [(255, 0x80)]).status = .running ∧
      step (st 255 18 0b10001 [(255, 0x80)]) = .next u ∧ u.status = .faulted .truncatedBranch :=
  ⟨_, rfl, rfl, rfl⟩

theorem witness_TerminalStatesAreFinal :
    ∀ x ∈ [Status.halted, .loopDetected, .stepLimitReached, .faulted .pcOutOfRange],
      ((st 0 0 0 []).stop x).status ≠ .running := by decide

theorem witness_EveryRunEndsWithin257Steps : State.reset.Inv := boot_inv [] (by decide)

/-- STEP_LIMIT 1, met by the first NOP. -/
theorem witness_StepLimitIsReachedOnlyBelow257 :
    ∃ u, (State.resetWith { Config.default with stepLimit := 1 }).Inv ∧
      (State.resetWith { Config.default with stepLimit := 1 }).status = .running ∧
      step (State.resetWith { Config.default with stepLimit := 1 }) = .next u ∧
      u.status = .stepLimitReached :=
  ⟨_,
   { cfg := by decide
     mem := by decide
     pc := by decide
     pcWrap := by decide
     flags := .inl ⟨rfl, rfl, rfl⟩
     record := rfl
     run := fun _ => ⟨by decide, by decide, by decide⟩
     steps := by decide }, rfl, rfl, rfl⟩

/-! ### Whole machine -/

theorem witness_OnlyStaChangesMemory :
    ∃ u, step (st 16 9 0 [(16, 0x1F)]) = .next u ∧ u.memRead 15 ≠ (st 16 9 0 [(16, 0x1F)]).memRead 15 :=
  ⟨_, rfl, by decide⟩

/-- LDA 15 over two memories that differ in cell 16. -/
theorem witness_DataAccessReachesCells0To15Only :
    ∃ t t', (∀ x : Byte, x.toNat < 16 →
        Memory.read [(15, 4), (16, 1)] x.toNat = (st 20 0 0 [(15, 4)]).memRead x) ∧
      exec (.lda 15) (st 20 0 0 [(15, 4)]) = .next t ∧
      exec (.lda 15) { st 20 0 0 [(15, 4)] with mem := [(15, 4), (16, 1)] } = .next t' :=
  ⟨_, _, by decide, rfl, rfl⟩

theorem witness_OnlySubWritesTheBorrowFlag :
    (∃ t, exec (.add 3) (st 16 1 1 []) = .next t ∧ ∀ a, Instr.add 3 ≠ .sub a) ∧
    (∃ t, exec (.sta 3) (st 16 1 1 []) = .next t ∧ .sta 3 ∉ [Instr.not, .shr, .shl, .ror, .rol] ∧
      ∀ a, Instr.sta 3 ≠ .lda a ∧ Instr.sta 3 ≠ .add a ∧ Instr.sta 3 ≠ .sub a ∧ Instr.sta 3 ≠ .or a ∧
        Instr.sta 3 ≠ .and a) :=
  ⟨⟨_, rfl, by decide⟩, ⟨_, rfl, by decide, by decide⟩⟩

theorem witness_OverflowIsSetByAddAndSubOnly :
    ∃ u, step (st 16 127 0 [(3, 1), (16, 0x33)]) = .next u ∧ u.flags.v = true ∧
      (st 16 127 0 [(3, 1), (16, 0x33)]).flags.v = false := ⟨_, rfl, by decide, by decide⟩

/-- Two states that differ in Visited, Steps and STEP_LIMIT. -/
theorem witness_InstructionsCannotReadTheBookkeeping :
    ∃ t t' s', s' = { (st 16 1 0 []).markVisited 3 with
        steps := 9, cfg := { Config.default with stepLimit := 10 } } ∧
      s'.pc = (st 16 1 0 []).pc ∧ s'.ac = (st 16 1 0 []).ac ∧ s'.flags = (st 16 1 0 []).flags ∧
      s'.mem = (st 16 1 0 []).mem ∧ s'.cfg.pcWrap = (st 16 1 0 []).cfg.pcWrap ∧
      exec .shr (st 16 1 0 []) = .next t ∧ exec .shr s' = .next t' :=
  ⟨_, _, _, rfl, rfl, rfl, rfl, rfl, rfl, rfl, rfl⟩

theorem witness_ConfigurationNeverChanges :
    (∃ t, exec (.sta 3) (st 16 1 0 []) = .next t) ∧ ∃ u, step (st 16 1 0 []) = .next u :=
  ⟨⟨_, rfl⟩, ⟨_, rfl⟩⟩

/-- STA 3 at 2 stores the byte the next fetch reads, and STA 4 at 2 a trailing byte of it. -/
theorem witness_StoreIsSeenByTheNextFetch :
    (∃ u, (st 2 0xF0 0 [(2, 0x13)]).Ready ∧ (st 2 0xF0 0 [(2, 0x13)]).fetchDecode = .ok (.sta 3) ∧
      step (st 2 0xF0 0 [(2, 0x13)]) = .next u ∧ u.pc.toNat + 0 = (3#4).toNat) ∧
    (∃ u, (st 2 0xF0 0 [(2, 0x14)]).Ready ∧ (st 2 0xF0 0 [(2, 0x14)]).fetchDecode = .ok (.sta 4) ∧
      step (st 2 0xF0 0 [(2, 0x14)]) = .next u ∧ u.pc.toNat + 1 = (4#4).toNat) :=
  ⟨⟨_, ⟨rfl, by decide⟩, rfl, rfl, by decide⟩, ⟨_, ⟨rfl, by decide⟩, rfl, rfl, by decide⟩⟩

/-! ### Results, frames and laws -/

/-- The premise `pc ≤ 255` of every result statement, at both ends; `8 ≤ sub` at its boundary; a raw sum and
a raw difference for ADD and SUB; and a nibble no class has. -/
theorem witness_results :
    (st 0 0 0 []).pc.toNat ≤ 255 ∧ (st 255 0 0 []).pc.toNat ≤ 255 ∧ 8 ≤ (8#8).toNat ∧ 8 ≤ (255#8).toNat ∧
    (300 : Nat) = (st 16 200 0 [(3, 100)]).ac.toNat + (Memory.read (st 16 200 0 [(3, 100)]).mem 3).toNat ∧
    (-1 : Int) = ((st 16 0 0 [(3, 1)]).ac.toNat : Int) - ((Memory.read (st 16 0 0 [(3, 1)]).mem 3).toNat : Int) ∧
    ∀ c ∈ OpClass.all, OpcodeMap.default.nibble c ≠ 0xD#4 := by decide

/-- The fetch clause of StaStoresTheAccumulatorInOneCell: STA 4 at 2 stores the second byte of the next fetch. -/
theorem witness_StaStoresTheAccumulatorInOneCell :
    ∃ t, (st 2 9 0 []).pc.toNat ≤ 255 ∧ exec (.sta 4) (st 2 9 0 []) = .next t ∧ 1 < 3 ∧
      t.pc.toNat + 1 = (4#4).toNat ∧ (∀ b, Instr.nop ≠ .sta b) ∧ ∃ u, exec .nop (st 2 9 0 []) = .next u :=
  ⟨_, by decide, rfl, by decide, by decide, by decide, _, rfl⟩

/-- A JMP at 255, a JMP to itself, and a JMP to an address in Visited. -/
theorem witness_JmpLoadsThePc :
    ((st 255 0 0 [(255, 0x8F)]).Ready ∧ (st 255 0 0 [(255, 0x8F)]).pc.toNat = 255 ∧
      opcodeOf ((st 255 0 0 [(255, 0x8F)]).memRead 255) = 8) ∧
    ((st 20 0 0 [(20, 0x80), (21, 20)]).Ready ∧
      (st 20 0 0 [(20, 0x80), (21, 20)]).fetchDecode = .ok (.jmp 20) ∧
      (20#8).toNat = (st 20 0 0 [(20, 0x80), (21, 20)]).pc.toNat) ∧
    (((st 20 0 0 [(20, 0x80), (21, 5)]).markVisited 5).Ready ∧
      ((st 20 0 0 [(20, 0x80), (21, 5)]).markVisited 5).fetchDecode = .ok (.jmp 5) ∧
      ((st 20 0 0 [(20, 0x80), (21, 5)]).markVisited 5).visits (5#8).toNat = true) :=
  ⟨⟨⟨rfl, by decide⟩, by decide, by decide⟩, ⟨⟨rfl, by decide⟩, rfl, by decide⟩,
   ⟨⟨rfl, by decide⟩, rfl, by decide⟩⟩

/-- JN, JP and JZ in the last cell. -/
theorem witness_ShortBranchesFollowTheirCondition : ∀ b ∈ [0x90#8, 0xBF#8, 0xA3#8],
    (st 255 0 0 [(255, b)]).pc.toNat = 255 ∧ (st 255 0 0 [(255, b)]).cfg.wf ∧
    opcodeOf ((st 255 0 0 [(255, b)]).memRead 255) ∈ [OpClass.jn, .jp, .jz].map OpcodeMap.default.nibble := by
  decide

/-- EXT_JMP at 254 with subcode 4, at 254 with subcode 8 and at 255. -/
theorem witness_ExtendedBranchesAtTheEnd :
    ((st 254 0 0 [(254, 0xC0), (255, 4)]).Ready ∧ (st 254 0 0 [(254, 0xC0), (255, 4)]).pc.toNat = 254 ∧
      opcodeOf ((st 254 0 0 [(254, 0xC0), (255, 4)]).memRead 254) = OpcodeMap.default.nibble .extJmp) ∧
    ((st 254 0 0 [(254, 0xC0), (255, 8)]).Ready ∧ (st 254 0 0 [(254, 0xC0), (255, 8)]).pc.toNat = 254 ∧
      8 ≤ ((st 254 0 0 [(254, 0xC0), (255, 8)]).memRead 255).toNat ∧
      opcodeOf ((st 254 0 0 [(254, 0xC0), (255, 8)]).memRead 254) = OpcodeMap.default.nibble .extJmp) ∧
    ((st 255 0 0 [(255, 0xCF)]).Ready ∧ (st 255 0 0 [(255, 0xCF)]).pc.toNat = 255 ∧
      opcodeOf ((st 255 0 0 [(255, 0xCF)]).memRead 255) = OpcodeMap.default.nibble .extJmp) := by
  refine ⟨⟨⟨rfl, ?_⟩, ?_⟩, ⟨⟨rfl, ?_⟩, ?_⟩, ⟨⟨rfl, ?_⟩, ?_⟩⟩ <;> decide

/-- Each frame statement's premise: the instruction answers a next state. -/
theorem witness_frames :
    (∃ t, exec .rol (st 16 1 0 []) = .next t) ∧ (∃ t, exec .nop (st 16 1 0 []) = .next t) ∧
    (∃ t, exec (.sub 2) (st 16 1 0 []) = .next t) ∧ (∃ t, exec (.sta 15) (st 16 1 0 []) = .next t) ∧
    (∃ t, exec (.jp 7) (st 16 1 0 []) = .next t) ∧ (∃ t, exec .hlt (st 16 1 0 []) = .next t) :=
  ⟨⟨_, rfl⟩, ⟨_, rfl⟩, ⟨_, rfl⟩, ⟨_, rfl⟩, ⟨_, rfl⟩, ⟨_, rfl⟩⟩

/-- 255 + 1 for the gates of ADD, 0 - 129 for those of SUB. -/
theorem witness_gates :
    (∃ t, exec (.add 3) (st 16 255 0 [(3, 1)]) = .next t) ∧
    (∃ t, exec (.sub 3) (st 16 0 0 [(3, 129)]) = .next t) := ⟨⟨_, rfl⟩, ⟨_, rfl⟩⟩

/-- 95_test_vectors.md W2, 0x81 with C set, for each of the four pairs. -/
theorem witness_ShiftPairsRoundTrip :
    (∃ t u, exec .shl (st 16 0x81 2 []) = .next t ∧ exec .shr t = .next u) ∧
    (∃ t u, exec .shr (st 16 0x81 2 []) = .next t ∧ exec .shl t = .next u) ∧
    (∃ t u, exec .rol (st 16 0x81 2 []) = .next t ∧ exec .ror t = .next u) ∧
    (∃ t u, exec .ror (st 16 0x81 2 []) = .next t ∧ exec .rol t = .next u) :=
  ⟨⟨_, _, rfl, rfl⟩, ⟨_, _, rfl, rfl⟩, ⟨_, _, rfl, rfl⟩, ⟨_, _, rfl, rfl⟩⟩

theorem witness_ConditionsPartitionTheBranches :
    State.reset.Inv ∧ (40#8).toNat ≠ State.reset.seqNat 2 ∧ State.reset.pc.toNat ≤ 255 :=
  ⟨boot_inv [] (by decide), by decide, by decide⟩

end Sys2Proof.Machine.Tests
end

/-! # Memory changes only by STA (20_memory.md R44) -/

namespace Sys2Proof.Machine

/-- All a step can do to memory: STA sets the cell it names to the accumulator, and every other step, the
engine's own part of it included, leaves memory alone (20_memory.md R44). -/
theorem step_mem {s u : State} (h : step s = .next u) :
    (∃ a, s.fetchDecode = .ok (.sta a) ∧ u.mem = (s.memWrite (dataAddr a) s.ac).mem) ∨ u.mem = s.mem := by
  obtain ⟨_, rfl⟩ | ⟨hs, _, ⟨_, _, rfl⟩ | ⟨i, t, hf, ht, rfl⟩⟩ := step_cases h
  · exact .inr rfl
  · exact .inr (State.raise_mem s _)
  · have hp : s.pc.toNat < 256 := Nat.lt_succ_of_le (State.fetchDecode_ok hf).1
    obtain ⟨_, _, _, hmem, _⟩ := retire_keeps hs hp ht
    rw [hmem]
    obtain ⟨a, rfl, hw⟩ | ⟨_, hsame⟩ := exec_mem ht
    · exact .inl ⟨a, hf, hw⟩
    · exact .inr hsame

/-- Settles O28: a changed cell rules out every step but a STA, and every cell but the one it stores to. -/
theorem onlyStaChangesMemory : Obligations.OnlyStaChangesMemory := by
  intro s u x h hne
  obtain ⟨a, hf, hu⟩ | hu := step_mem h
  · have hread : u.memRead x = (s.memWrite (dataAddr a) s.ac).memRead x := by
      simp only [State.memRead, hu]
    have hx : x = dataAddr a := by
      by_contra hx
      exact hne (hread.trans (State.memRead_memWrite_other s _ x _ hx))
    subst hx
    exact ⟨a, hf, dataAddr_toNat a, hread.trans (State.memRead_memWrite_same s _ _)⟩
  · exact absurd (by simp only [State.memRead, hu]) hne

end Sys2Proof.Machine

/-! # The shift group's selector (30_encoding.md R65) -/

namespace Sys2Proof

/-- The four operations of the shift group, one to a value of the selector. -/
theorem decodeShift_eq_ite (sel : BitVec 2) :
    decodeShift sel = if sel = 0 then .shr else if sel = 1 then .shl else if sel = 2 then .ror else .rol := by
  revert sel
  decide

/-- Settles O6: bits 3 and 2 fall away with the truncation to the selector, whose four values are the four
operations. -/
theorem shiftSelectorPicksTheOperation : Obligations.ShiftSelectorPicksTheOperation := by
  intro m hi sel rest h
  rw [decode_shiftByte m h hi sel rest, decodeShift_eq_ite]

end Sys2Proof

/-! # The ALU / Logic Unit (41_alu.md R92 to R97) -/

namespace Sys2Proof.Machine

/-- 41_alu.md R92, with the operand as the cell it is read from. -/
theorem exec_lda (a : Nibble) (s : State) :
    exec (.lda a) s = .next ((s.writeMasked (Memory.read s.mem a.toNat)).advance 1) := by
  rw [← State.operand_eq_read]
  rfl

/-- 41_alu.md R94, with the raw sum taken in the natural numbers. -/
theorem exec_add (a : Nibble) (s : State) :
    exec (.add a) s =
      .next ((s.writeRaw (s.ac.toNat + (Memory.read s.mem a.toNat).toNat : Nat)).advance 1) := by
  rw [← State.operand_eq_read]
  rfl

/-- 41_alu.md R95, for a name `raw` of the difference. -/
theorem exec_sub {a : Nibble} {s : State} {raw : Int}
    (h : raw = (s.ac.toNat : Int) - ((Memory.read s.mem a.toNat).toNat : Int)) :
    exec (.sub a) s = .next (((s.writeRaw raw).setBorrow (decide (raw < 0))).advance 1) := by
  rw [h, ← State.operand_eq_read]
  rfl

/-- 41_alu.md R96, with the operand as the cell it is read from. -/
theorem exec_or (a : Nibble) (s : State) :
    exec (.or a) s = .next ((s.writeMasked (s.ac ||| Memory.read s.mem a.toNat)).advance 1) := by
  rw [← State.operand_eq_read]
  rfl

/-- 41_alu.md R97, with the operand as the cell it is read from. -/
theorem exec_and (a : Nibble) (s : State) :
    exec (.and a) s = .next ((s.writeMasked (s.ac &&& Memory.read s.mem a.toNat)).advance 1) := by
  rw [← State.operand_eq_read]
  rfl

/-- What an instruction that writes `r` with the masked-value update and moves on leaves (40_flag_unit.md R81,
R83): LDA, OR, AND and NOT differ in `r` alone. -/
theorem exec_of_writeMasked {i : Instr} {s : State} {r : Byte} (hp : s.pc.toNat ≤ 255)
    (h : exec i s = .next ((s.writeMasked r).advance 1)) :
    ∃ t, exec i s = .next t ∧ t.ac = r ∧
      (t.flags.n = true ↔ 128 ≤ t.ac.toNat) ∧ (t.flags.z = true ↔ t.ac.toNat = 0) ∧
      t.flags.v = false ∧ t.flags.c = false ∧ t.flags.b = s.flags.b ∧
      t.pc.toNat = s.seqNat 1 ∧ OnlyProcessorState s t := by
  refine ⟨_, h, rfl, ?n, ?z, rfl, rfl, rfl, State.seqNext_toNat s 1 (by omega), rfl⟩
  case n =>
    simp only [State.advance_flags, State.writeMasked_flags, Flags.apply_n, updateFlagsMasked_n, getLsbD_seven,
      decide_eq_true_eq, State.advance_ac, State.writeMasked_ac]
  case z =>
    simp only [State.advance_flags, State.writeMasked_flags, Flags.apply_z, updateFlagsMasked_z, beq_zero,
      decide_eq_true_eq, State.advance_ac, State.writeMasked_ac]

/-- What the raw-value update leaves in ac and the flags (40_flag_unit.md R80, R82), on the raws its callers
pass. -/
theorem State.writeRaw_spec (s : State) {raw : Int} (h : raw ≤ 510) :
    ((s.writeRaw raw).ac.toNat : Int) = raw % 256 ∧
    ((s.writeRaw raw).flags.n = true ↔ 128 ≤ raw % 256) ∧
    ((s.writeRaw raw).flags.z = true ↔ raw % 256 = 0) ∧
    ((s.writeRaw raw).flags.v = true ↔ raw > 127 ∨ raw < -128) ∧
    (s.writeRaw raw).flags.c = decide (256 ≤ raw) := by
  obtain ⟨hn, hz, hv, hc⟩ := updateFlags_spec raw h
  refine ⟨ofInt_toNat raw, ?_, ?_, ?_, hc⟩
  · simp only [State.writeRaw_flags, Flags.apply_n, hn, decide_eq_true_eq]
  · simp only [State.writeRaw_flags, Flags.apply_z, hz, decide_eq_true_eq]
  · simp only [State.writeRaw_flags, Flags.apply_v, hv, decide_eq_true_eq]

/-- The fetch window holds the bytes from the pc on, up to the end of memory (20_memory.md R42). -/
theorem State.fetchWindow_getElem? (s : State) {k : Nat} {x : Byte} (hk : k < 3)
    (hx : s.pc.toNat + k = x.toNat) : s.fetchWindow[k]? = some (s.memRead x) := by
  have hlt : s.pc.toNat + k < 256 := hx ▸ x.isLt
  have haddr : BitVec.ofNat 8 (s.pc.toNat + k) = x := by rw [hx, BitVec.ofNat_toNat, BitVec.setWidth_eq]
  rw [State.fetchWindow_eq s (by omega), ← haddr]
  match k, hk with
  | 0, _ => rfl
  | 1, _ => rw [if_pos (by omega)]; rfl
  | 2, _ => rw [if_pos (by omega), if_pos (by omega)]; rfl

/-- Settles O36: LDA is a masked-value write of the cell. -/
theorem ldaLoadsACellAndClearsVAndC : Obligations.LdaLoadsACellAndClearsVAndC :=
  ⟨fun m a rest hm => decode_firstByte m hm .lda a rest,
    fun s a hp => exec_of_writeMasked hp (exec_lda a s)⟩

/-- Settles O37: STA is one memory write, which every read and every fetch sees, and no other instruction
writes memory. -/
theorem staStoresTheAccumulatorInOneCell : Obligations.StaStoresTheAccumulatorInOneCell := by
  refine ⟨fun m a rest hm => decode_firstByte m hm .sta a rest, fun s a hp => ?_⟩
  have hstored : ((s.memWrite (dataAddr a) s.ac).advance 1).memRead (dataAddr a) = s.ac :=
    State.memRead_memWrite_same s (dataAddr a) s.ac
  refine ⟨(s.memWrite (dataAddr a) s.ac).advance 1, rfl, dataAddr_toNat a, hstored, ?others, ?fetch,
    State.seqNext_toNat s 1 (by omega), rfl, ?onlySta⟩
  case others => exact fun x hx => State.memRead_memWrite_other s (dataAddr a) x s.ac hx
  case fetch =>
    intro k hk hpc
    rw [State.fetchWindow_getElem? _ hk (hpc.trans (dataAddr_toNat a).symm), hstored]
  case onlySta =>
    intro i u hi hu
    obtain ⟨b, rfl, _⟩ | ⟨_, hmem⟩ := exec_mem hu
    · exact absurd rfl (hi b)
    · exact hmem

/-- Settles O38: the raw sum is at most 510, so the raw-value update tells its carry and its overflow, and a sum
is never below -128. -/
theorem addWritesTheWrappedSumAndRawFlags : Obligations.AddWritesTheWrappedSumAndRawFlags := by
  refine ⟨fun m a rest hm => decode_firstByte m hm .add a rest, fun s a raw hp hraw => ?_⟩
  have hle : (raw : Int) ≤ 510 := by omega
  obtain ⟨hac, hn, hz, hv, hc⟩ := s.writeRaw_spec hle
  refine ⟨(s.writeRaw raw).advance 1, hraw ▸ exec_add a s, ?ac, hn.trans ?n, hz.trans ?z, hv.trans ?v, ?c, rfl,
    State.seqNext_toNat s 1 (by omega), rfl⟩
  case ac => exact_mod_cast hac
  case c => rw [State.advance_flags, hc, decide_eq_true_eq]; omega
  all_goals omega

/-- Settles O39: the raw difference is at most 255, so the raw-value update clears C; B is then written beside
it. -/
theorem subWritesTheWrappedDifferenceAndBorrow : Obligations.SubWritesTheWrappedDifferenceAndBorrow := by
  refine ⟨fun m a rest hm => decode_firstByte m hm .sub a rest, fun s a raw hp hraw => ?_⟩
  have hle : raw ≤ 255 := by omega
  obtain ⟨hac, hn, hz, hv, hc⟩ := s.writeRaw_spec (show raw ≤ 510 by omega)
  exact ⟨_, exec_sub hraw, hac, hn, hz, hv, hc.trans (decide_eq_false (by omega)), decide_eq_true_iff,
    State.seqNext_toNat s 1 (by omega), rfl⟩

/-- Settles O40: OR is a masked-value write of the bitwise or. -/
theorem orIsBitwiseAndClearsVAndC : Obligations.OrIsBitwiseAndClearsVAndC := by
  refine ⟨fun m a rest hm => decode_firstByte m hm .or a rest, fun s a hp => ?_⟩
  obtain ⟨t, ht, hac, hrest⟩ := exec_of_writeMasked hp (exec_or a s)
  exact ⟨t, ht, fun k => by rw [hac, BitVec.getLsbD_or], hrest⟩

/-- Settles O41: AND is a masked-value write of the bitwise and. -/
theorem andIsBitwiseAndClearsVAndC : Obligations.AndIsBitwiseAndClearsVAndC := by
  refine ⟨fun m a rest hm => decode_firstByte m hm .and a rest, fun s a hp => ?_⟩
  obtain ⟨t, ht, hac, hrest⟩ := exec_of_writeMasked hp (exec_and a s)
  exact ⟨t, ht, fun k => by rw [hac, BitVec.getLsbD_and], hrest⟩

end Sys2Proof.Machine

/-! # The Shift/Rotate Unit (42_shift_rotate.md R111, R112) -/

namespace Sys2Proof.Machine

/-- What an instruction that ends in `shiftResult` leaves (42_shift_rotate.md R110): the shifts and the rotates
differ in the result `r` and the carry-out `c` alone. -/
theorem exec_of_shiftResult {i : Instr} {s : State} {r : Byte} {c : Bool} (hp : s.pc.toNat ≤ 255)
    (h : exec i s = .next (s.shiftResult r c)) :
    ∃ t, exec i s = .next t ∧ t.ac = r ∧
      (t.flags.n = true ↔ 128 ≤ r.toNat) ∧ (t.flags.z = true ↔ r.toNat = 0) ∧
      t.flags.v = false ∧ t.flags.c = c ∧ t.flags.b = s.flags.b ∧
      t.pc.toNat = s.seqNat 1 ∧ OnlyProcessorState s t := by
  refine ⟨_, h, rfl, ?n, ?z, rfl, rfl, rfl, State.seqNext_toNat s 1 (by omega), rfl⟩
  case n =>
    simp only [State.shiftResult_flags, Flags.apply_n, updateFlagsMasked_n, getLsbD_seven, decide_eq_true_eq]
  case z =>
    simp only [State.shiftResult_flags, Flags.apply_z, updateFlagsMasked_z, beq_zero, decide_eq_true_eq]

/-- Bit 0 of a byte as a number. -/
theorem getLsbD_zero_eq_decide (r : Byte) : r.getLsbD 0 = decide (r.toNat % 2 = 1) :=
  Nat.testBit_zero r.toNat

/-- The logical shift right by one as a number. -/
theorem ushiftRight_one_toNat (r : Byte) : (r >>> 1).toNat = r.toNat / 2 := by
  rw [BitVec.toNat_ushiftRight, Nat.shiftRight_one]

/-- The shift left by one as a number. -/
theorem shiftLeft_one_toNat (r : Byte) : (r <<< 1).toNat = 2 * r.toNat % 256 := by
  rw [BitVec.toNat_shiftLeft, Nat.shiftLeft_eq, pow_one, mul_comm]

/-- Settles O43: a half of a byte stays below 128, so N is clear, and is 0 for the bytes 0 and 1 alone. -/
theorem shrHalvesTheAccumulator : Obligations.ShrHalvesTheAccumulator := by
  refine ⟨fun m y rest hm => decode_shiftByte m hm y 0#2 rest, fun s hp => ?_⟩
  obtain ⟨t, ht, hac, hn, hz, hv, hc, hrest⟩ := exec_of_shiftResult (i := .shr) hp rfl
  rw [ushiftRight_one_toNat] at hn hz
  refine ⟨t, ht, ?ac, ?n, hz.trans ?z, hv, ?c, hrest⟩
  case ac => rw [hac, ushiftRight_one_toNat]
  case n => rw [Bool.eq_false_iff, Ne, hn]; omega
  case z => omega
  case c => rw [hc, getLsbD_zero_eq_decide, decide_eq_true_eq]

/-- Settles O44: doubling drops bit 7 and moves bit 6 to the sign's place. -/
theorem shlDoublesTheAccumulator : Obligations.ShlDoublesTheAccumulator := by
  refine ⟨fun m y rest hm => decode_shiftByte m hm y 1#2 rest, fun s hp => ?_⟩
  obtain ⟨t, ht, hac, hn, hz, hv, hc, hrest⟩ := exec_of_shiftResult (i := .shl) hp rfl
  rw [shiftLeft_one_toNat] at hn hz
  refine ⟨t, ht, ?ac, hn.trans ?n, hz.trans ?z, hv, ?c, hrest⟩
  case ac => rw [hac, shiftLeft_one_toNat]
  case c => rw [hc, getLsbD_seven, decide_eq_true_eq]
  all_goals omega

end Sys2Proof.Machine

/-! # What RESET leaves (44_engine.md R141) -/

namespace Sys2Proof.Machine

@[simp] theorem State.resetCommand_status (s : State) : s.resetCommand.status = .running := rfl
@[simp] theorem State.resetCommand_pc (s : State) : s.resetCommand.pc = 0 := rfl
@[simp] theorem State.resetCommand_ac (s : State) : s.resetCommand.ac = 0 := rfl
@[simp] theorem State.resetCommand_flags (s : State) :
    s.resetCommand.flags = { n := false, z := false, v := false, c := false, b := false } := rfl
@[simp] theorem State.resetCommand_mem (s : State) : s.resetCommand.mem = s.cfg.image := rfl

/-- Settles O8: RESET writes constants to the Processor State and the image to memory. -/
theorem runStartsWithFreshProcessorState : Obligations.RunStartsWithFreshProcessorState := by
  intro s a
  have hmem : s.resetCommand.memRead a = Memory.read s.cfg.image a.toNat := by
    rw [State.memRead, State.resetCommand_mem]
  simp [hmem]

end Sys2Proof.Machine

/-! # The faults of the fetch (60_exceptions.md R171, R172) -/

namespace Sys2Proof.Machine

/-- No instruction's meaning raises PcOutOfRange. -/
theorem exec_status_ne_pcOutOfRange {i : Instr} {s t : State} (h : exec i s = .next t)
    (hs : s.status ≠ .faulted .pcOutOfRange) : t.status ≠ .faulted .pcOutOfRange := by
  rw [exec_status h]
  split_ifs
  · exact nofun
  · exact nofun
  · exact hs

/-- The end of a step raises no fault of its own. -/
theorem retire_status_of_faulted {s t : State} {i : Instr} {k : Fault} (hs : s.status = .running)
    (hp : s.pc.toNat < 256) (h : exec i s = .next t) (hk : (retire s i t).status = .faulted k) :
    t.status = .faulted k := by
  obtain ⟨_, e⟩ | ⟨_, e⟩ | ⟨_, _, ht, e⟩ := retire_cases hs h
  · rwa [e] at hk
  · rwa [e, State.emit_status] at hk
  · rw [e] at hk
    obtain ⟨_, e'⟩ | ⟨_, ⟨_, e'⟩ | ⟨_, e'⟩⟩ := State.loopCheck_cases (t.emit (stepEvent s i t)) s.pc hp <;>
      simp [e', ht] at hk

/-- A Running step that ends in PcOutOfRange started past the end of memory and did nothing but raise it. -/
theorem step_pcOutOfRange {s u : State} (hs : s.status = .running) (h : step s = .next u)
    (hu : u.status = .faulted .pcOutOfRange) : 255 < s.pc.toNat ∧ u = s.raise .pcOutOfRange := by
  obtain ⟨hns, _⟩ | ⟨_, _, ⟨k, hf, rfl⟩ | ⟨i, t, hf, ht, rfl⟩⟩ := step_cases h
  · exact absurd hs hns
  · obtain rfl : k = .pcOutOfRange := by simpa using hu
    obtain ⟨hp, _⟩ | ⟨_, hk, _⟩ := State.fetchDecode_error hf
    · exact ⟨hp, rfl⟩
    · cases hk
  · have hp : s.pc.toNat < 256 := Nat.lt_succ_of_le (State.fetchDecode_ok hf).1
    exact absurd (retire_status_of_faulted hs hp ht hu) (exec_status_ne_pcOutOfRange ht (by simp [hs]))

/-- An instruction inside memory moves the pc to 256 only by an advance to the end without wrap: a branch
target is a byte. -/
theorem exec_pc_eq_256 {i : Instr} {s t : State} (h : exec i s = .next t) (hp : s.pc.toNat ≤ 255)
    (hend : s.pc.toNat + i.length ≤ 256) (ht : t.pc.toNat = 256) :
    s.cfg.pcWrap = false ∧ s.pc.toNat + i.length = 256 := by
  obtain ⟨_, hpc⟩ | ⟨_, hpc | ⟨b, hpc⟩⟩ := exec_pc h
  · rw [hpc] at ht
    omega
  · rw [hpc, State.seqNext_toNat s _ (by omega), State.seqNat] at ht
    split at ht
    · omega
    · exact ⟨by simpa using ‹¬ s.cfg.pcWrap = true›, ht⟩
  · rw [hpc, targetPc_toNat] at ht
    omega

/-- Settles O21: the range check is the one place that raises PcOutOfRange, and only an advance reaches 256. -/
theorem pcOutOfRangeIsRaisedPastTheEndOnly : Obligations.PcOutOfRangeIsRaisedPastTheEndOnly := by
  refine ⟨fun s hr hp => ?raised, fun s u hinv hs h hu => ?onlyPast,
    fun i s t h hs => exec_status_ne_pcOutOfRange h hs, fun s u hr hp h hu => ?advance⟩
  case raised => exact ⟨_, step_of_error hr (State.fetchDecode_of_gt hp), rfl, rfl⟩
  case onlyPast =>
    obtain ⟨hp, rfl⟩ := step_pcOutOfRange hs h hu
    have hpc : s.pc.toNat = 256 := by have := hinv.pc; omega
    refine ⟨hpc, ?_, ?_⟩
    · by_contra hw
      have := hinv.pcWrap (by simpa using hw)
      omega
    · rw [State.raise_faultRecord, show s.pc = 256#9 from BitVec.eq_of_toNat_eq hpc]
  case advance =>
    obtain ⟨hns, _⟩ | ⟨hs, _, ⟨k, _, rfl⟩ | ⟨i, t, hf, ht, rfl⟩⟩ := step_cases h
    · exact absurd hr.1 hns
    · rw [State.raise_pc] at hu
      omega
    · obtain ⟨_, _, hend, _⟩ := State.fetchDecode_ok hf
      obtain ⟨hpc, _⟩ := retire_keeps hs (Nat.lt_succ_of_le hp) ht
      rw [hpc] at hu
      obtain ⟨hw, hlen⟩ := exec_pc_eq_256 ht hp hend hu
      exact ⟨hw, i, hf, hlen⟩

/-- A short-form branch's first byte with no byte after it is a truncated branch. -/
theorem decode_shortBranch_truncated {m : OpcodeMap} (hm : m.wf = true) {c : OpClass} {b0 : Byte}
    (hc : c ∈ [OpClass.jmp, .jn, .jz, .jp]) (h : opcodeOf b0 = m.nibble c) :
    decode m [b0] = .error .truncatedBranch := by
  rw [← firstByte_opcodeOf_operandOf b0, h, decode_firstByte m hm]
  simp only [List.mem_cons, List.not_mem_nil, or_false] at hc
  obtain rfl | rfl | rfl | rfl := hc <;> rfl

/-- An extended branch's first byte with fewer than two bytes after it is a truncated branch. -/
theorem decode_extendedBranch_truncated {m : OpcodeMap} (hm : m.wf = true) {b0 : Byte} {rest : List Byte}
    (h : opcodeOf b0 = m.nibble .extJmp) (hrest : rest.length < 2) :
    decode m (b0 :: rest) = .error .truncatedBranch := by
  rw [← firstByte_opcodeOf_operandOf b0, h, decode_firstByte m hm]
  match rest, hrest with
  | [], _ => rfl
  | [_], _ => rfl

/-- Settles O22: the window at the end of memory is too short for the branch, so the decoder fails before any
flag or subcode is looked at. -/
theorem truncatedBranchIsRaisedAtTheEndOfMemory : Obligations.TruncatedBranchIsRaisedAtTheEndOfMemory := by
  intro s hr h
  have hm : s.cfg.opcodeMap.wf = true := hr.2.2.1
  have hp : s.pc.toNat ≤ 255 := by omega
  have hd : decode s.cfg.opcodeMap s.fetchWindow = .error .truncatedBranch := by
    rw [State.fetchWindow_eq s hp]
    obtain ⟨h255, c, hc, hop⟩ | ⟨hend, hop⟩ := h
    · rw [if_neg (by omega)]
      exact decode_shortBranch_truncated hm hc hop
    · apply decode_extendedBranch_truncated hm hop
      rw [if_neg (show ¬ s.pc.toNat ≤ 253 by omega)]
      split <;> simp
  exact ⟨_, step_of_error hr (State.fetchDecode_of_truncated hp hd), rfl, rfl⟩

end Sys2Proof.Machine

/-! # The decoder and the encoder (30_encoding.md) -/

namespace Sys2Proof

/-- The three bytes of an extended branch, whatever the ignored nibble of the first (30_encoding.md R64, R69). -/
theorem decode_extendedBytes {m : OpcodeMap} (hm : m.wf = true) (x : Nibble) (sub t : Byte) (rest : List Byte) :
    decode m (firstByte (m.nibble .extJmp) x :: sub :: t :: rest) = .ok (decodeExtended sub t, rest) :=
  decode_firstByte m hm .extJmp x _

/-- Settles O2: each encoding opens with the nibble of its class, which a legal map reads back, and its low nibble
and trailing bytes are the operands in the decoder's order. -/
theorem decodeInvertsEncode : Obligations.DecodeInvertsEncode := by
  intro m i rest hm hi
  cases i
  case unassigned => exact decode_firstByte_of_none m _ 0 rest m.classOf_unassignedNibble
  case jv t | jnv t | jzx t | jnz t | jc t | jnc t | jb t | jnb t => exact decode_extendedBytes hm 0 _ t rest
  case extJmp sub t =>
    exact (decode_extendedBytes hm 0 sub t rest).trans
      (by rw [decodeExtended_of_ge sub t (of_decide_eq_true hi)])
  case shr | shl | ror | rol => exact decode_firstByte m hm .shift _ rest
  case nop | not | hlt => exact decode_firstByte m hm _ 0 rest
  case sta a | lda a | add a | or a | and a | sub a => exact decode_firstByte m hm _ a rest
  case jmp t | jn t | jz t | jp t => exact decode_firstByte m hm _ 0 (t :: rest)

/-- The encoder gives back the opcode nibble of what the decoder accepts. -/
theorem encode_head_of_decode_ok {m : OpcodeMap} (hm : m.wf = true) {b0 : Byte} {bytes rest : List Byte}
    {i : Instr} (h : decode m (b0 :: bytes) = .ok (i, rest)) :
    (encode m i).head?.map opcodeOf = some (opcodeOf b0) := by
  cases hc : m.classOf (opcodeOf b0) with
  | none =>
    simp only [decode, hc, Except.ok.injEq, Prod.mk.injEq] at h
    rw [← h.1, m.eq_unassignedNibble hm hc]
    simp [encode]
  | some c =>
    rw [← OpcodeMap.nibble_of_classOf hc]
    cases c <;> simp only [decode, hc] at h
    case jmp | jn | jz | jp =>
      obtain ⟨t, _, rfl⟩ := decodeShortBranch_ok h
      simp [encode]
    case extJmp =>
      obtain ⟨sub, t, _, rfl⟩ := decodeExtendedBranch_ok h
      exact encode_decodeExtended_head m sub t
    case shift =>
      cases h
      exact encode_decodeShift_head m _
    all_goals
      cases h
      simp [encode]

/-- What the decoder leaves is the tail of what it was given. -/
theorem decode_ok_suffix {m : OpcodeMap} {b0 : Byte} {bytes rest : List Byte} {i : Instr}
    (h : decode m (b0 :: bytes) = .ok (i, rest)) : rest <:+ b0 :: bytes := by
  obtain ⟨rfl, _⟩ | ⟨t, rfl, _⟩ | ⟨sub, t, rfl, _⟩ := decode_ok_cases h
  · exact ⟨[b0], rfl⟩
  · exact ⟨[b0, t], rfl⟩
  · exact ⟨[b0, sub, t], rfl⟩

/-- Settles O3: what is left is a tail, so the lengths tell what was taken. -/
theorem decoderTakesTheLengthOfTheClass : Obligations.DecoderTakesTheLengthOfTheClass := by
  intro m b0 bytes rest i hm h
  obtain ⟨hwf, hlen⟩ := decode_ok_wf_length h
  refine ⟨hwf, ?_, hlen, encode_head_of_decode_ok hm h⟩
  rw [List.suffix_iff_eq_drop.mp (decode_ok_suffix h), hlen, Nat.add_sub_cancel]

/-- The two low bits of a nibble are its remainder by 4. -/
theorem setWidth_two_eq {lo lo' : Nibble} (h : lo.toNat % 4 = lo'.toNat % 4) :
    lo.setWidth 2 = lo'.setWidth 2 :=
  BitVec.eq_of_toNat_eq (by simpa using h)

/-- Settles O4: only the data address and the selector are read from the low nibble. -/
theorem ignoredBitsNeverMatter : Obligations.IgnoredBitsNeverMatter := by
  intro m op lo lo' rest hdata hshift
  cases hc : m.classOf op with
  | none => rw [decode_firstByte_of_none m op lo rest hc, decode_firstByte_of_none m op lo' rest hc]
  | some c =>
    cases c
    case sta | lda | add | or | and | sub => exact absurd hc (hdata _ (by simp))
    case shift => simp only [decode, opcodeOf_firstByte, hc, selectorOf_firstByte, setWidth_two_eq (hshift hc)]
    all_goals simp only [decode, opcodeOf_firstByte, hc]

/-- A short-form branch fails to decode exactly for want of its target byte. -/
theorem decodeShortBranch_eq_error {mk : Byte → Instr} {bytes : List Byte} {e : DecodeError} :
    decodeShortBranch mk bytes = .error e ↔ e = .truncatedBranch ∧ bytes.length < 1 := by
  cases bytes <;> simp [decodeShortBranch, eq_comm]

/-- An extended branch fails to decode exactly for want of its subcode or target byte. -/
theorem decodeExtendedBranch_eq_error {bytes : List Byte} {e : DecodeError} :
    decodeExtendedBranch bytes = .error e ↔ e = .truncatedBranch ∧ bytes.length < 2 := by
  match bytes with
  | [] => simp [decodeExtendedBranch, eq_comm]
  | [_] => simp [decodeExtendedBranch, eq_comm]
  | _ :: _ :: _ => simp [decodeExtendedBranch]

/-- Settles O5: the branches alone ask for bytes after the first. -/
theorem decodingFailsExactlyOnTruncation : Obligations.DecodingFailsExactlyOnTruncation := by
  intro m b0 rest e
  cases hc : m.classOf (opcodeOf b0) with
  | none => simp [decode, hc]
  | some c =>
    cases c
    case jmp | jn | jz | jp => simp [decode, hc, decodeShortBranch_eq_error]
    case extJmp => simp [decode, hc, decodeExtendedBranch_eq_error]
    all_goals simp [decode, hc]

/-- The extended branch of each subcode byte, as a chain of tests. -/
theorem decodeExtended_eq_ite (sub t : Byte) :
    decodeExtended sub t =
      if sub = 0 then .jv t else if sub = 1 then .jnv t else if sub = 2 then .jzx t
      else if sub = 3 then .jnz t else if sub = 4 then .jc t else if sub = 5 then .jnc t
      else if sub = 6 then .jb t else if sub = 7 then .jnb t else .extJmp sub t := by
  by_cases h : 8 ≤ sub.toNat
  · have hne : ∀ k : Byte, k.toNat < 8 → sub ≠ k := by rintro k hk rfl; omega
    rw [decodeExtended_of_ge sub t h, if_neg (hne 0 (by decide)), if_neg (hne 1 (by decide)),
      if_neg (hne 2 (by decide)), if_neg (hne 3 (by decide)), if_neg (hne 4 (by decide)),
      if_neg (hne 5 (by decide)), if_neg (hne 6 (by decide)), if_neg (hne 7 (by decide))]
  · obtain ⟨k, rfl⟩ : ∃ k : Fin 8, sub = BitVec.ofNat 8 k :=
      ⟨⟨sub.toNat, by omega⟩, by simp⟩
    fin_cases k <;> rfl

/-- Settles O7: an extended branch's first byte hands over to the subcode, whose whole byte is compared. -/
theorem subcodeByteSelectsTheCondition : Obligations.SubcodeByteSelectsTheCondition := by
  intro m x sub t rest hm
  rw [decode_extendedBytes hm, decodeExtended_eq_ite]

/-- Settles O1: each word is decoded by evaluation under the default map. -/
theorem wordsOfTheEncodingTableDecode : Obligations.WordsOfTheEncodingTableDecode :=
  ⟨rfl, rfl, rfl, rfl, rfl, rfl, rfl, rfl, rfl, rfl⟩

end Sys2Proof

/-! # What one instruction leaves (41_alu.md, 42_shift_rotate.md, 43_branch.md) -/

namespace Sys2Proof.Machine

/-- Every instruction but HLT and the illegal opcode leaves the engine's bookkeeping, the EVENT stream and the
configuration. -/
theorem exec_sameEngine {i : Instr} {s t : State} (h : exec i s = .next t) (hu : i ≠ .unassigned)
    (hh : i ≠ .hlt) : SameEngine s t := by
  obtain ⟨hvisited, hsteps, hevents, hcfg⟩ := exec_bookkeeping h
  have hstatus := exec_status h
  have hrecord := exec_faultRecord h
  rw [if_neg hh, if_neg hu] at hstatus
  rw [if_neg hu] at hrecord
  exact ⟨hstatus, hrecord, hvisited, hsteps, hevents, hcfg⟩

/-- No instruction changes the configuration. -/
theorem exec_cfg {i : Instr} {s t : State} (h : exec i s = .next t) : t.cfg = s.cfg := by
  obtain ⟨-, -, -, hcfg⟩ := exec_bookkeeping h
  exact hcfg

/-- All an instruction can do to ac and the flags: leave them, or write ac together with N and Z that tell of it;
V is set by ADD and SUB alone. -/
theorem exec_ac_flags {i : Instr} {s t : State} (h : exec i s = .next t) :
    (t.ac = s.ac ∧ t.flags = s.flags) ∨
    ((i ∈ [Instr.not, .shr, .shl, .ror, .rol] ∨ ∃ a, i ∈ [Instr.lda a, .add a, .sub a, .or a, .and a]) ∧
      t.flags.n = t.ac.getLsbD 7 ∧ t.flags.z = (t.ac == 0) ∧
      (t.flags.v = false ∨ ∃ a, i = .add a ∨ i = .sub a)) := by
  cases i
  case not | shr | shl | ror | rol => cases h; exact .inr ⟨.inl (by simp), rfl, rfl, .inl rfl⟩
  case lda a | or a | and a => cases h; exact .inr ⟨.inr ⟨a, by simp⟩, rfl, rfl, .inl rfl⟩
  case add a | sub a => cases h; exact .inr ⟨.inr ⟨a, by simp⟩, rfl, rfl, .inr ⟨a, by simp⟩⟩
  case jmp | jn | jz | jp | jv | jnv | jzx | jnz | jc | jnc | jb | jnb | extJmp =>
    cases h
    rw [State.branchIf_eq]
    exact .inl ⟨rfl, rfl⟩
  all_goals cases h; exact .inl ⟨rfl, rfl⟩

/-- B is written by SUB alone (10_state.md R31). -/
theorem exec_flags_b {i : Instr} {s t : State} (h : exec i s = .next t) (hi : ∀ a, i ≠ .sub a) :
    t.flags.b = s.flags.b := by
  cases i
  case sub a => exact absurd rfl (hi a)
  case jmp | jn | jz | jp | jv | jnv | jzx | jnz | jc | jnc | jb | jnb | extJmp =>
    cases h
    rw [State.branchIf_eq]
    rfl
  all_goals cases h; rfl

/-- Settles O30: `exec_flags_b` for B, `exec_ac_flags` for the instructions it names as the writers. -/
theorem onlySubWritesTheBorrowFlag : Obligations.OnlySubWritesTheBorrowFlag := by
  refine ⟨fun i s t h hi => exec_flags_b h hi, fun i s t h hreg hmem => ?_, fun s => rfl⟩
  obtain ⟨_, hf⟩ | ⟨hi | ⟨a, hi⟩, _⟩ := exec_ac_flags h
  · exact hf
  · exact absurd hi hreg
  · simp [hmem a] at hi

/-- Settles O53: none of them is STA, HLT, the illegal opcode or, but for SUB, a writer of B. -/
theorem registerInstructionsKeepTheirFrame : Obligations.RegisterInstructionsKeepTheirFrame := by
  intro s t a i hi h
  have hother : i ≠ .unassigned ∧ i ≠ .hlt ∧ (∀ b, i ≠ .sta b) ∧ ∀ b, i = .sub b → i = .sub a := by
    simp only [List.mem_cons, List.not_mem_nil, or_false] at hi
    obtain rfl | rfl | rfl | rfl | rfl | rfl | rfl | rfl | rfl | rfl | rfl := hi <;> simp
  obtain ⟨hu, hh, hsta, hsub⟩ := hother
  refine ⟨fun x => ?bytes, exec_sameEngine h hu hh, ?nop, fun hi => exec_flags_b h fun b e => hi (hsub b e)⟩
  case bytes =>
    obtain ⟨b, e, _⟩ | ⟨_, hmem⟩ := exec_mem h
    · exact absurd e (hsta b)
    · simp only [State.memRead, hmem]
  case nop => rintro rfl; cases h; exact ⟨rfl, rfl⟩

/-- Settles O54: STA is one memory write and an advance. -/
theorem staKeepsItsFrame : Obligations.StaKeepsItsFrame := by
  intro s t a h
  cases h
  exact ⟨fun x hx => State.memRead_memWrite_other s (dataAddr a) x s.ac hx, rfl, rfl,
    rfl, rfl, rfl, rfl, rfl, rfl⟩

/-- Settles O55: none of them is STA, the illegal opcode or a writer of ac and the flags. -/
theorem controlInstructionsKeepTheirFrame : Obligations.ControlInstructionsKeepTheirFrame := by
  intro s u sub t i hi h
  have hother : i ≠ .unassigned ∧ (∀ b, i ≠ .sta b) ∧ i ∉ [Instr.not, .shr, .shl, .ror, .rol] ∧
      ∀ a, i ∉ [Instr.lda a, .add a, .sub a, .or a, .and a] := by
    simp only [List.mem_cons, List.not_mem_nil, or_false] at hi
    obtain rfl | rfl | rfl | rfl | rfl | rfl | rfl | rfl | rfl | rfl | rfl | rfl | rfl | rfl := hi <;> simp
  obtain ⟨hu, hsta, hreg, hmemop⟩ := hother
  obtain ⟨hvisited, hsteps, hevents, hcfg⟩ := exec_bookkeeping h
  have hrecord := exec_faultRecord h
  rw [if_neg hu] at hrecord
  have hbytes : SameBytes s u := by
    obtain ⟨b, e, _⟩ | ⟨_, hmem⟩ := exec_mem h
    · exact absurd e (hsta b)
    · exact fun x => by simp only [State.memRead, hmem]
  obtain ⟨hac, hflags⟩ : u.ac = s.ac ∧ u.flags = s.flags := by
    obtain hsame | ⟨hi | ⟨a, hi⟩, _⟩ := exec_ac_flags h
    · exact hsame
    · exact absurd hi hreg
    · exact absurd hi (hmemop a)
  exact ⟨hbytes, hac, hflags, hrecord, hvisited, hsteps, hevents, hcfg,
    fun hh => (exec_sameEngine h hu hh).1⟩

/-- The Processor State after an instruction is a function of the Processor State, PC_WRAP and the data operands
before it. -/
theorem exec_congr {i : Instr} {s s' t t' : State} (hpc : s'.pc = s.pc) (hac : s'.ac = s.ac)
    (hflags : s'.flags = s.flags) (hwrap : s'.cfg.pcWrap = s.cfg.pcWrap)
    (hoperand : ∀ a, s'.operand a = s.operand a) (h : exec i s = .next t) (h' : exec i s' = .next t') :
    t'.pc = t.pc ∧ t'.ac = t.ac ∧ t'.flags = t.flags := by
  have hseq : ∀ n, s'.seqNext n = s.seqNext n := fun n => by simp only [State.seqNext, hpc, hwrap]
  cases i <;> cases h <;> cases h'
  case jmp | jn | jz | jp | jv | jnv | jzx | jnz | jc | jnc | jb | jnb | extJmp =>
    simp [State.branchIf_eq, hac, hflags, hseq]
  case unassigned => simp [hpc, hac, hflags]
  all_goals simp [State.carryIn, hac, hflags, hseq, hoperand]

/-- The memory after an instruction is a function of the memory and ac before it. -/
theorem exec_mem_congr {i : Instr} {s s' t t' : State} (hac : s'.ac = s.ac) (hmem : s'.mem = s.mem)
    (h : exec i s = .next t) (h' : exec i s' = .next t') : t'.mem = t.mem := by
  obtain ⟨a, rfl, e⟩ | ⟨hi, e⟩ := exec_mem h <;> obtain ⟨b, hb, e'⟩ | ⟨hi', e'⟩ := exec_mem h'
  · cases hb
    rw [e, e', hac, hmem]
  · exact absurd rfl (hi' a)
  · exact absurd hb (hi b)
  · rw [e, e', hmem]

/-- Settles O32: the operands are read from memory, which the two states share. -/
theorem instructionsCannotReadTheBookkeeping : Obligations.InstructionsCannotReadTheBookkeeping := by
  intro i s s' t t' hpc hac hflags hmem hwrap h h'
  have hoperand : ∀ a, s'.operand a = s.operand a := fun a => by
    rw [State.operand_eq_read, State.operand_eq_read, hmem]
  obtain ⟨hpc', hac', hflags'⟩ := exec_congr hpc hac hflags hwrap hoperand h h'
  exact ⟨hpc', hac', hflags', exec_mem_congr hac hmem h h'⟩

/-- The byte an instruction leaves in a cell: the old ac where it is a STA to that cell, else the byte that was
there. -/
theorem exec_memRead {i : Instr} {s t : State} (h : exec i s = .next t) (x : Byte) :
    (∃ a, i = .sta a ∧ x = dataAddr a ∧ t.memRead x = s.ac) ∨
    ((∀ a, i = .sta a → x ≠ dataAddr a) ∧ t.memRead x = s.memRead x) := by
  obtain ⟨a, rfl, e⟩ | ⟨hi, e⟩ := exec_mem h
  · have hread : t.memRead x = (s.memWrite (dataAddr a) s.ac).memRead x := by
      simp only [State.memRead, e, State.memWrite_mem]
    by_cases hx : x = dataAddr a
    · exact .inl ⟨a, rfl, hx, by rw [hread, hx, State.memRead_memWrite_same]⟩
    · exact .inr ⟨fun b hb => by cases hb; exact hx, by rw [hread, State.memRead_memWrite_other s _ x _ hx]⟩
  · exact .inr ⟨fun a ha => absurd ha (hi a), by simp only [State.memRead, e]⟩

/-- Settles O29: every data address is below 16, so a load reads, and a store writes, only cells the two memories
share. -/
theorem dataAccessReachesCells0To15Only : Obligations.DataAccessReachesCells0To15Only := by
  intro i s t t' mem' hlow h h'
  have haddr : ∀ a : Nibble, (dataAddr a).toNat < 16 := fun a => dataAddr_toNat a ▸ a.isLt
  obtain ⟨hpc, hac, hflags⟩ := exec_congr (s := s) (s' := { s with mem := mem' }) rfl rfl rfl rfl
    (fun a => hlow (dataAddr a) (haddr a)) h h'
  have hstatus : t'.status = t.status := (exec_status h').trans (exec_status h).symm
  refine ⟨hpc, hac, hflags, hstatus, fun x hx => ?low, fun x hx => ?high⟩
  case low =>
    obtain ⟨a, hi, hxa, e⟩ | ⟨hi, e⟩ := exec_memRead h x <;>
      obtain ⟨b, hi', hxb, e'⟩ | ⟨hi', e'⟩ := exec_memRead h' x
    · rw [e, e']
    · exact absurd hxa (hi' a hi)
    · exact absurd hxb (hi b hi')
    · rw [e, e']
      exact hlow x hx
  case high =>
    obtain ⟨a, _, rfl, _⟩ | ⟨_, e⟩ := exec_memRead h x
    · exact absurd (haddr a) (by omega)
    · exact e

end Sys2Proof.Machine

/-! # NOP, NOT, HLT and the illegal opcode (41_alu.md, 44_engine.md section 3, 60_exceptions.md) -/

namespace Sys2Proof.Machine

/-- Settles O35: NOP is an advance. -/
theorem nopOnlyAdvancesThePc : Obligations.NopOnlyAdvancesThePc :=
  ⟨fun m x rest hm => decode_firstByte m hm .nop x rest,
    fun s _ => ⟨s.advance 1, rfl, State.seqNext_toNat s 1 (by omega), rfl⟩⟩

/-- Settles O42: NOT is a masked-value write of the complement. -/
theorem notComplementsTheAccumulator : Obligations.NotComplementsTheAccumulator := by
  refine ⟨fun m x rest hm => decode_firstByte m hm .not x rest, fun s hp => ?_⟩
  obtain ⟨t, ht, hac, hrest⟩ := exec_of_writeMasked (i := .not) hp rfl
  refine ⟨t, ht, ?_, hrest⟩
  rw [hac, BitVec.toNat_not]

/-- Settles O51: HLT is an advance and a stop. -/
theorem hltAdvancesThenHalts : Obligations.HltAdvancesThenHalts :=
  ⟨fun m x rest hm => decode_firstByte m hm .hlt x rest,
    fun s _ => ⟨(s.advance 1).stop .halted, rfl, State.seqNext_toNat s 1 (by omega), rfl, rfl⟩⟩

/-- Settles O52: the decoder answers the illegal opcode where no class answers, and its meaning is `raise`. -/
theorem unassignedOpcodeRaisesItsFault : Obligations.UnassignedOpcodeRaisesItsFault :=
  ⟨fun m op x rest h => decode_firstByte_of_none m op x rest (OpcodeMap.classOf_eq_none.mpr h),
    fun s => ⟨s.raise .unknownBranchOpcode, rfl, rfl, rfl, rfl⟩⟩

end Sys2Proof.Machine

/-! # The rotates and the round trips (42_shift_rotate.md R113 to R115) -/

namespace Sys2Proof.Machine

@[simp] theorem State.carryIn_toNat (s : State) : s.carryIn.toNat = s.flags.c.toNat := by
  simp only [State.carryIn]
  cases s.flags.c <;> rfl

/-- What ROR writes to ac, as a number: the carry-in lands above the seven bits that are left. -/
theorem rorResult_toNat (s : State) :
    ((s.ac >>> 1) ||| (s.carryIn <<< 7)).toNat = s.ac.toNat / 2 + 128 * s.flags.c.toNat := by
  have hlow : s.ac.toNat / 2 < 2 ^ 7 := by omega
  have hc : s.flags.c.toNat ≤ 1 := Bool.toNat_le _
  rw [BitVec.toNat_or, ushiftRight_one_toNat, BitVec.toNat_shiftLeft, State.carryIn_toNat,
    Nat.mod_eq_of_lt (by rw [Nat.shiftLeft_eq]; omega), Nat.or_comm, ← Nat.shiftLeft_add_eq_or_of_lt hlow,
    Nat.shiftLeft_eq]
  omega

/-- What ROL writes to ac, as a number: the carry-in lands in the bit the doubling left free. -/
theorem rolResult_toNat (s : State) :
    ((s.ac <<< 1) ||| s.carryIn).toNat = 2 * s.ac.toNat % 256 + s.flags.c.toNat := by
  have hc : s.flags.c.toNat < 2 ^ 1 := Bool.toNat_lt _
  have heven : 2 * s.ac.toNat % 256 = (s.ac.toNat % 128) <<< 1 := by rw [Nat.shiftLeft_eq]; omega
  rw [BitVec.toNat_or, shiftLeft_one_toNat, State.carryIn_toNat, heven, ← Nat.shiftLeft_add_eq_or_of_lt hc]

/-- Settles O45: the old carry is the sign of the result, and adds 128 to the half of ac. -/
theorem rorRotatesRightThroughTheCarry : Obligations.RorRotatesRightThroughTheCarry := by
  refine ⟨fun m y rest hm => decode_shiftByte m hm y 2#2 rest, fun s hp => ?_⟩
  obtain ⟨t, ht, hac, hn, hz, hv, hc, hrest⟩ := exec_of_shiftResult (i := .ror) hp rfl
  have hcarry : s.flags.c.toNat ≤ 1 := Bool.toNat_le _
  rw [rorResult_toNat] at hn hz
  refine ⟨t, ht, ?ac, Bool.eq_iff_iff.mpr (hn.trans ?n), hz.trans ?z, hv, ?c, hrest⟩
  case ac => rw [hac, rorResult_toNat]
  case n => rw [← Bool.toNat_eq_one]; omega
  case z => rw [← Bool.toNat_eq_zero]; omega
  case c => rw [hc, getLsbD_zero_eq_decide, decide_eq_true_eq]

/-- Settles O46: the old carry adds 1 to the doubled ac, which is even. -/
theorem rolRotatesLeftThroughTheCarry : Obligations.RolRotatesLeftThroughTheCarry := by
  refine ⟨fun m y rest hm => decode_shiftByte m hm y 3#2 rest, fun s hp => ?_⟩
  obtain ⟨t, ht, hac, hn, hz, hv, hc, hrest⟩ := exec_of_shiftResult (i := .rol) hp rfl
  have hcarry : s.flags.c.toNat ≤ 1 := Bool.toNat_le _
  rw [rolResult_toNat] at hn hz
  refine ⟨t, ht, ?ac, hn.trans ?n, hz.trans ?z, hv, ?c, hrest⟩
  case ac => rw [hac, rolResult_toNat]
  case n => omega
  case z => rw [← Bool.toNat_eq_zero]; omega
  case c => rw [hc, getLsbD_seven, decide_eq_true_eq]

/-- Bit 0 of a byte, as a number. -/
theorem getLsbD_zero_toNat (r : Byte) : (r.getLsbD 0).toNat = r.toNat % 2 := by
  rw [BitVec.getLsbD, Nat.toNat_testBit, pow_zero, Nat.div_one]

/-- Bit 7 of a byte, as a number. -/
theorem getLsbD_seven_toNat (r : Byte) : (r.getLsbD 7).toNat = r.toNat / 128 := by
  rw [BitVec.getLsbD, Nat.toNat_testBit]
  omega

/-- A bit is told by its number. -/
theorem bool_eq_of_toNat_eq {b c : Bool} (h : b.toNat = c.toNat) : b = c := by
  rw [← Bool.ofNat_toNat b, h, Bool.ofNat_toNat]

/-! The number each of the four leaves in ac, and the bit it leaves in C. -/

theorem exec_shr_toNat {s t : State} (h : exec .shr s = .next t) :
    t.ac.toNat = s.ac.toNat / 2 ∧ t.flags.c.toNat = s.ac.toNat % 2 := by
  cases h
  exact ⟨ushiftRight_one_toNat s.ac, getLsbD_zero_toNat s.ac⟩

theorem exec_shl_toNat {s t : State} (h : exec .shl s = .next t) :
    t.ac.toNat = 2 * s.ac.toNat % 256 ∧ t.flags.c.toNat = s.ac.toNat / 128 := by
  cases h
  exact ⟨shiftLeft_one_toNat s.ac, getLsbD_seven_toNat s.ac⟩

theorem exec_ror_toNat {s t : State} (h : exec .ror s = .next t) :
    t.ac.toNat = s.ac.toNat / 2 + 128 * s.flags.c.toNat ∧ t.flags.c.toNat = s.ac.toNat % 2 := by
  cases h
  exact ⟨rorResult_toNat s, getLsbD_zero_toNat s.ac⟩

theorem exec_rol_toNat {s t : State} (h : exec .rol s = .next t) :
    t.ac.toNat = 2 * s.ac.toNat % 256 + s.flags.c.toNat ∧ t.flags.c.toNat = s.ac.toNat / 128 := by
  cases h
  exact ⟨rolResult_toNat s, getLsbD_seven_toNat s.ac⟩

/-- Masking bit 7 off. -/
theorem and_0x7F_toNat (r : Byte) : (r &&& 0x7F#8).toNat = r.toNat % 128 :=
  Nat.and_two_pow_sub_one_eq_mod r.toNat 7

/-- Masking bit 0 off. -/
theorem and_0xFE_toNat (r : Byte) : (r &&& 0xFE#8).toNat = 2 * (r.toNat / 2) := by
  revert r; decide

/-- Settles O58: in numbers, doubling and halving lose the bit that went to C, and the rotates bring it back. -/
theorem shiftPairsRoundTrip : Obligations.ShiftPairsRoundTrip := by
  intro s t u
  have hc : s.flags.c.toNat ≤ 1 := Bool.toNat_le _
  refine ⟨fun h h' => ?shlShr, fun h h' => ?shrShl, fun h h' => ?rolRor, fun h h' => ?rorRol⟩
  case shlShr =>
    obtain ⟨hac, -⟩ := exec_shl_toNat h
    obtain ⟨hac', hc'⟩ := exec_shr_toNat h'
    refine ⟨BitVec.eq_of_toNat_eq ?_, Bool.toNat_eq_zero.mp (by omega)⟩
    rw [and_0x7F_toNat]
    omega
  case shrShl =>
    obtain ⟨hac, -⟩ := exec_shr_toNat h
    obtain ⟨hac', hc'⟩ := exec_shl_toNat h'
    refine ⟨BitVec.eq_of_toNat_eq ?_, Bool.toNat_eq_zero.mp (by omega)⟩
    rw [and_0xFE_toNat]
    omega
  case rolRor =>
    obtain ⟨hac, hc₁⟩ := exec_rol_toNat h
    obtain ⟨hac', hc'⟩ := exec_ror_toNat h'
    exact ⟨BitVec.eq_of_toNat_eq (by omega), bool_eq_of_toNat_eq (by omega)⟩
  case rorRol =>
    obtain ⟨hac, hc₁⟩ := exec_ror_toNat h
    obtain ⟨hac', hc'⟩ := exec_rol_toNat h'
    exact ⟨BitVec.eq_of_toNat_eq (by omega), bool_eq_of_toNat_eq (by omega)⟩

end Sys2Proof.Machine

/-! # The gates of the Flag Unit (40_flag_unit.md R84, R85) -/

namespace Sys2Proof.Machine

/-! Bits of a 9-bit word as numbers. -/

theorem getLsbD_seven_nine (x : BitVec 9) : x.getLsbD 7 = decide (128 ≤ x.toNat % 256) := by
  revert x; decide

theorem getLsbD_eight_nine (x : BitVec 9) : x.getLsbD 8 = decide (256 ≤ x.toNat) := by
  revert x; decide

theorem setWidth_eight_beq_zero (x : BitVec 9) : (x.setWidth 8 == 0#8) = decide (x.toNat % 256 = 0) := by
  revert x; decide

/-- The low byte of an integer is the low byte of any 9-bit word congruent to it. -/
theorem ofInt_eq_setWidth {raw : Int} {x : BitVec 9} (h : raw % 512 = x.toNat) :
    BitVec.ofInt 8 raw = x.setWidth 8 := by
  apply BitVec.eq_of_toNat_eq
  have hlow := ofInt_toNat raw
  rw [BitVec.toNat_setWidth]
  omega

/-- N and Z of the raw-value update are gates on any 9-bit word congruent to the raw. -/
theorem updateFlags_n_z {raw : Int} {x : BitVec 9} (hraw : raw ≤ 510) (h : raw % 512 = x.toNat) :
    (updateFlags raw).n = x.getLsbD 7 ∧ (updateFlags raw).z = (x.setWidth 8 == 0#8) := by
  obtain ⟨hn, hz, -⟩ := updateFlags_spec raw hraw
  rw [hn, hz, getLsbD_seven_nine, setWidth_eight_beq_zero, decide_eq_decide, decide_eq_decide]
  omega

/-- Settles O56: two bytes sum to at most 510, so the 9-bit sum is the raw. -/
theorem addFlagsAreGatesOnTheNineBitSum : Obligations.AddFlagsAreGatesOnTheNineBitSum := by
  intro s t a h sum
  cases h
  have hx : ((s.ac.toNat : Int) + (s.operand a).toNat) % 512 = sum.toNat := by
    simp only [sum, BitVec.toNat_add, BitVec.toNat_setWidth]
    omega
  have hle : (s.ac.toNat : Int) + (s.operand a).toNat ≤ 510 := by omega
  obtain ⟨hn, hz⟩ := updateFlags_n_z hle hx
  obtain ⟨-, -, hv, hc⟩ := updateFlags_spec _ hle
  refine ⟨ofInt_eq_setWidth hx, hn, hz, hc.trans ?c, hv.trans ?v⟩
  case c => rw [getLsbD_eight_nine, decide_eq_decide]; omega
  case v =>
    rw [getLsbD_eight_nine, getLsbD_seven_nine, ← Bool.decide_or, decide_eq_decide]
    omega

/-- Settles O57: a difference of two bytes is at least -255, so bit 8 of the 9-bit difference is its sign. -/
theorem subFlagsAreGatesOnTheNineBitDifference : Obligations.SubFlagsAreGatesOnTheNineBitDifference := by
  intro s t a h d
  cases h
  have hx : ((s.ac.toNat : Int) - (s.operand a).toNat) % 512 = d.toNat := by
    simp only [d, BitVec.toNat_sub, BitVec.toNat_setWidth]
    omega
  have hle : (s.ac.toNat : Int) - (s.operand a).toNat ≤ 510 := by omega
  obtain ⟨hn, hz⟩ := updateFlags_n_z hle hx
  obtain ⟨-, -, hv, hc⟩ := updateFlags_spec _ hle
  refine ⟨ofInt_eq_setWidth hx, hn, hz, hc.trans ?c, hv.trans ?v, ?b⟩
  case c => rw [decide_eq_false_iff_not]; omega
  case v =>
    rw [getLsbD_eight_nine, getLsbD_seven_nine, Bool.eq_iff_iff]
    simp only [decide_eq_true_eq, Bool.xor_iff_ne, ne_eq, decide_eq_decide]
    omega
  case b =>
    rw [getLsbD_eight_nine]
    simp only [State.advance_flags, State.setBorrow_flags, decide_eq_decide]
    omega

end Sys2Proof.Machine

/-! # The Branch Resolver (43_branch.md) -/

namespace Sys2Proof.Machine

/-- What a branch leaves (43_branch.md R121, R126): pc alone changes, to the target or past the branch. -/
theorem exec_of_branchIf {i : Instr} {s : State} {take : Bool} {t : Byte} {n : Nat} (hp : s.pc.toNat ≤ 255)
    (hn : n ≤ 3) (h : exec i s = .next (s.branchIf take t n)) :
    ∃ u, exec i s = .next u ∧ OnlyPc s u ∧ u.pc.toNat = if take = true then t.toNat else s.seqNat n := by
  refine ⟨_, h, ?_⟩
  rw [State.branchIf_eq, State.setPc_pc, apply_ite BitVec.toNat, targetPc_toNat,
    State.seqNext_toNat s n (by omega)]
  exact ⟨rfl, rfl⟩

/-- The pc as the address of its byte. -/
theorem State.pc_setWidth {s : State} {x : Byte} (h : s.pc.toNat = x.toNat) : s.pc.setWidth 8 = x :=
  BitVec.eq_of_toNat_eq (by rw [BitVec.toNat_setWidth, h, Nat.mod_eq_of_lt x.isLt])

/-- A machine that steps has a legal OPCODE_MAP (30_encoding.md R63). -/
theorem State.Ready.opcodeMap_wf {s : State} (hr : s.Ready) : s.cfg.opcodeMap.wf = true := by
  obtain ⟨_, _, hm, _⟩ := hr
  exact hm

/-- A short-form branch in the last cell faults, and the step does nothing else (44_engine.md R142, R145). -/
theorem step_shortBranch_at_end {s : State} (hr : s.Ready) (hp : s.pc.toNat = 255) {c : OpClass}
    (hc : c ∈ [OpClass.jmp, .jn, .jz, .jp])
    (hop : opcodeOf (s.memRead 255#8) = s.cfg.opcodeMap.nibble c) :
    step s = .next (s.raise .truncatedBranch) := by
  refine step_of_error hr (State.fetchDecode_of_truncated hp.le ?_)
  rw [State.fetchWindow_eq s hp.le, State.pc_setWidth (x := 255#8) hp, if_neg (by omega)]
  exact decode_shortBranch_truncated hr.opcodeMap_wf hc hop

/-- An extended branch in the last two cells faults, and the step does nothing else (44_engine.md R142, R145). -/
theorem step_extendedBranch_at_end {s : State} (hr : s.Ready) (hp : s.pc.toNat = 254 ∨ s.pc.toNat = 255)
    (hop : opcodeOf (s.memRead (s.pc.setWidth 8)) = s.cfg.opcodeMap.nibble .extJmp) :
    step s = .next (s.raise .truncatedBranch) := by
  have hp' : s.pc.toNat ≤ 255 := by omega
  refine step_of_error hr (State.fetchDecode_of_truncated hp' ?_)
  have hlen := State.fetchWindow_length s hp'
  rw [State.fetchWindow_eq s hp'] at hlen ⊢
  rw [List.length_cons] at hlen
  exact decode_extendedBranch_truncated hr.opcodeMap_wf hop (by omega)

/-- Settles O48: each decodes by its class, and branches on its own flags. -/
theorem shortBranchesFollowTheirCondition : Obligations.ShortBranchesFollowTheirCondition := by
  refine ⟨fun m x t rest hm => ⟨decode_firstByte m hm .jn x _, decode_firstByte m hm .jp x _,
    decode_firstByte m hm .jz x _⟩, fun s hr hp hop => ?_, fun s t hp => ⟨?jn, ?jp, ?jz⟩⟩
  · obtain ⟨c, hc, hop⟩ := List.mem_map.mp hop
    have hshort : ∀ c ∈ [OpClass.jn, .jp, .jz], c ∈ [OpClass.jmp, .jn, .jz, .jp] := by decide
    exact step_shortBranch_at_end hr hp (hshort c hc) hop.symm
  case jn => exact exec_of_branchIf hp (by decide) rfl
  case jp =>
    obtain ⟨u, hu, hframe, hpc⟩ := exec_of_branchIf (i := .jp t) hp (by decide) rfl
    exact ⟨u, hu, hframe, by simpa using hpc⟩
  case jz => exact exec_of_branchIf hp (by decide) rfl

/-- Settles O49: each of the eight subcodes names its branch, and each branch its own flag. -/
theorem extendedBranchesFollowTheirSubcode : Obligations.ExtendedBranchesFollowTheirSubcode := by
  refine ⟨fun m x t rest hm => ?decode, fun s hr hp hop => step_extendedBranch_at_end hr hp hop,
    fun s t hp p hmem => ?taken⟩
  case decode =>
    have hbytes (sub : Byte) := decode_extendedBytes hm x sub t rest
    exact ⟨hbytes 0, hbytes 1, hbytes 2, hbytes 3, hbytes 4, hbytes 5, hbytes 6, hbytes 7⟩
  case taken =>
    simp only [List.mem_cons, List.not_mem_nil, or_false] at hmem
    obtain rfl | rfl | rfl | rfl | rfl | rfl | rfl | rfl := hmem <;> exact exec_of_branchIf hp (by decide) rfl

/-- Settles O50: the skipped branch is a branch on `false`. -/
theorem outOfRangeSubcodeIsSkipped : Obligations.OutOfRangeSubcodeIsSkipped := by
  refine ⟨fun m x sub t rest hm hsub => ?decode,
    fun s hr hp hop => step_extendedBranch_at_end hr (hp.imp_left And.left) hop, fun s sub t _ hp => ?skipped⟩
  case decode => rw [decode_extendedBytes hm, decodeExtended_of_ge sub t hsub]
  case skipped =>
    obtain ⟨u, hu, hframe, hpc⟩ := exec_of_branchIf (i := .extJmp sub t) hp (by decide) rfl
    exact ⟨u, hu, hpc, hframe⟩

/-- Under the invariant N and Z are never both set (40_flag_unit.md R80). -/
theorem State.Inv.not_n_and_z {s : State} (h : s.Inv) : ¬ (s.flags.n = true ∧ s.flags.z = true) := by
  rintro ⟨hn, hz⟩
  obtain ⟨hn', -⟩ | ⟨hn', hz'⟩ := h.flags
  · exact absurd (hn.symm.trans hn') (by decide)
  · have hac : s.ac = 0 := by simpa [hz'] using hz
    rw [hn', hac] at hn
    exact absurd hn (by decide)

/-- A branch whose target is not its fall-through goes to the target exactly when it is taken. -/
theorem exec_branchIf_goes_iff {i : Instr} {s : State} {take : Bool} {t : Byte} {n : Nat}
    (hp : s.pc.toNat ≤ 255) (hn : n ≤ 3) (ht : t.toNat ≠ s.seqNat n)
    (h : exec i s = .next (s.branchIf take t n)) :
    (∃ u, exec i s = .next u ∧ u.pc.toNat = t.toNat) ↔ take = true := by
  obtain ⟨u, hu, -, hpc⟩ := exec_of_branchIf hp hn h
  constructor
  · rintro ⟨u', hu', hpc'⟩
    obtain rfl : u = u' := Host.Outcome.next.inj (hu.symm.trans hu')
    by_contra htake
    rw [if_neg htake] at hpc
    exact ht (hpc'.symm.trans hpc)
  · rintro htake
    exact ⟨u, hu, by rw [hpc, if_pos htake]⟩

/-- Of two branches with opposite conditions one goes to the target and the other falls through. -/
theorem exec_opposite_branches {i j : Instr} {s : State} {take : Bool} {t : Byte} {n : Nat}
    (hp : s.pc.toNat ≤ 255) (hn : n ≤ 3) (hi : exec i s = .next (s.branchIf take t n))
    (hj : exec j s = .next (s.branchIf (!take) t n)) :
    ∃ u u', exec i s = .next u ∧ exec j s = .next u' ∧
      ((u.pc.toNat = t.toNat ∧ u'.pc.toNat = s.seqNat n) ∨
       (u.pc.toNat = s.seqNat n ∧ u'.pc.toNat = t.toNat)) := by
  obtain ⟨u, hu, -, hpc⟩ := exec_of_branchIf hp hn hi
  obtain ⟨u', hu', -, hpc'⟩ := exec_of_branchIf hp hn hj
  refine ⟨u, u', hu, hu', ?_⟩
  cases take
  · exact .inr ⟨hpc, hpc'⟩
  · exact .inl ⟨hpc, hpc'⟩

/-- Settles O59: with N and Z never both set, N, Z and neither are the three cases, one to each short branch. -/
theorem conditionsPartitionTheBranches : Obligations.ConditionsPartitionTheBranches := by
  intro s t hinv ht hp
  have hjn := exec_branchIf_goes_iff (i := .jn t) hp (by decide) ht rfl
  have hjz := exec_branchIf_goes_iff (i := .jz t) hp (by decide) ht rfl
  have hjp := exec_branchIf_goes_iff (i := .jp t) hp (by decide) ht rfl
  refine ⟨?short, fun p hmem => ?extended⟩
  case short =>
    have hnz : s.flags.n = true → s.flags.z ≠ true := fun hn hz => hinv.not_n_and_z ⟨hn, hz⟩
    rw [Bool.and_eq_true, Bool.not_eq_true', Bool.not_eq_true', ← Bool.not_eq_true, ← Bool.not_eq_true] at hjp
    simp only [List.mem_cons, List.not_mem_nil, or_false]
    by_cases hn : s.flags.n = true
    · refine ⟨.jn t, ⟨.inl rfl, hjn.mpr hn⟩, ?_⟩
      rintro _ ⟨rfl | rfl | rfl, h⟩
      · rfl
      · exact absurd (hjz.mp h) (hnz hn)
      · exact absurd hn (hjp.mp h).1
    by_cases hz : s.flags.z = true
    · refine ⟨.jz t, ⟨.inr (.inl rfl), hjz.mpr hz⟩, ?_⟩
      rintro _ ⟨rfl | rfl | rfl, h⟩
      · exact absurd (hjn.mp h) hn
      · rfl
      · exact absurd hz (hjp.mp h).2
    · refine ⟨.jp t, ⟨.inr (.inr rfl), hjp.mpr ⟨hn, hz⟩⟩, ?_⟩
      rintro _ ⟨rfl | rfl | rfl, h⟩
      · exact absurd (hjn.mp h) hn
      · exact absurd (hjz.mp h) hz
      · rfl
  case extended =>
    simp only [List.mem_cons, List.not_mem_nil, or_false] at hmem
    obtain rfl | rfl | rfl | rfl := hmem <;> exact exec_opposite_branches hp (by decide) rfl rfl

end Sys2Proof.Machine

/-! # The step (44_engine.md R142 to R149) -/

namespace Sys2Proof.Machine

/-- The six ways a step of a Running machine ends, in the order of 44_engine.md R142: a fault of the fetch, the
illegal opcode, HLT, a revisited address, the step ceiling, or none of these. -/
inductive StepEnd (s : State) : State → Prop where
  | fetchFault {k : Fault} (hf : s.fetchDecode = .error k) : StepEnd s (s.raise k)
  | illegal (hf : s.fetchDecode = .ok .unassigned) : StepEnd s (s.raise .unknownBranchOpcode)
  | halted {t : State} (hf : s.fetchDecode = .ok .hlt) (ht : exec .hlt s = .next t) :
      StepEnd s (t.emit (stepEvent s .hlt t))
  | loop {i : Instr} {t : State} (hf : s.fetchDecode = .ok i) (ht : exec i s = .next t)
      (hu : i ≠ .unassigned) (hh : i ≠ .hlt) (hv : s.visits t.pc.toNat = true ∨ t.pc = s.pc) :
      StepEnd s (((t.emit (stepEvent s i t)).markVisited s.pc.toNat).stop .loopDetected)
  | ceiling {i : Instr} {t : State} (hf : s.fetchDecode = .ok i) (ht : exec i s = .next t)
      (hu : i ≠ .unassigned) (hh : i ≠ .hlt) (hv : s.visits t.pc.toNat = false) (hpc : t.pc ≠ s.pc)
      (hl : s.cfg.stepLimit ≤ s.steps + 1) :
      StepEnd s (((t.emit (stepEvent s i t)).markVisited s.pc.toNat).countStep.stop .stepLimitReached)
  | goesOn {i : Instr} {t : State} (hf : s.fetchDecode = .ok i) (ht : exec i s = .next t)
      (hu : i ≠ .unassigned) (hh : i ≠ .hlt) (hv : s.visits t.pc.toNat = false) (hpc : t.pc ≠ s.pc)
      (hl : s.steps + 1 < s.cfg.stepLimit) :
      StepEnd s ((t.emit (stepEvent s i t)).markVisited s.pc.toNat).countStep

/-- The pc of a step that fetched an instruction is an address. -/
theorem State.pc_lt_of_fetchDecode_ok {s : State} {i : Instr} (hf : s.fetchDecode = .ok i) :
    s.pc.toNat < 256 :=
  Nat.lt_succ_of_le (State.fetchDecode_ok hf).1

/-- The end of a step of an ordinary instruction, with steps 6 and 7 asked of the state before it. -/
theorem stepEnd_loopCheck {s t : State} {i : Instr} (hf : s.fetchDecode = .ok i) (ht : exec i s = .next t)
    (hu : i ≠ .unassigned) (hh : i ≠ .hlt) : StepEnd s ((t.emit (stepEvent s i t)).loopCheck s.pc) := by
  obtain ⟨-, -, hvisited, hsteps, -, hcfg⟩ := exec_sameEngine ht hu hh
  have hvisits (a : Nat) : (t.emit (stepEvent s i t)).visits a = s.visits a := by
    simp only [State.visits, State.emit_visited, hvisited]
  obtain ⟨hv, e⟩ | ⟨⟨hv, hpc⟩, ⟨hl, e⟩ | ⟨hl, e⟩⟩ :=
    State.loopCheck_cases (t.emit (stepEvent s i t)) s.pc (State.pc_lt_of_fetchDecode_ok hf)
  all_goals
    rw [hvisits] at hv
    rw [e]
  · exact .loop hf ht hu hh hv
  all_goals rw [State.emit_cfg, State.emit_steps, hcfg, hsteps] at hl
  · exact .ceiling hf ht hu hh hv hpc hl
  · exact .goesOn hf ht hu hh hv hpc hl

/-- Every step of a Running machine ends in one of the six ways. -/
theorem stepEnd_of_step {s u : State} (hs : s.status = .running) (h : step s = .next u) : StepEnd s u := by
  obtain ⟨hns, _⟩ | ⟨_, _, ⟨k, hf, rfl⟩ | ⟨i, t, hf, ht, rfl⟩⟩ := step_cases h
  · exact absurd hs hns
  · exact .fetchFault hf
  · obtain ⟨rfl, e⟩ | ⟨rfl, e⟩ | ⟨hu, hh, _, e⟩ := retire_cases hs ht <;> rw [e]
    · cases ht
      exact .illegal hf
    · exact .halted hf ht
    · exact stepEnd_loopCheck hf ht hu hh

/-- Under a configuration the spec admits a Running machine steps, and ends the step in one of the six ways. -/
theorem State.Ready.step_end {s : State} (hr : s.Ready) : ∃ u, step s = .next u ∧ StepEnd s u := by
  obtain ⟨u, hu⟩ := step_total hr.2
  exact ⟨u, hu, stepEnd_of_step hr.1 hu⟩

/-- Settles O12: the fetch is the decoder's answer on the window, and what it accepts is well formed. -/
theorem stepRunsTheDecodedInstruction : Obligations.StepRunsTheDecodedInstruction := by
  intro s t i rest hr hp hd ht
  have hf := State.fetchDecode_of_decode hp hd
  obtain ⟨_, hwf, _⟩ := State.fetchDecode_ok hf
  exact ⟨hwf, step_of_ok hr hf ht⟩

/-- Settles O13: the window, byte by byte, is what `MemRead` gives. -/
theorem fetchReadsTheBytesAtThePc : Obligations.FetchReadsTheBytesAtThePc :=
  fun s hp => ⟨State.fetchWindow_length s hp, fun _ _ hk ha => State.fetchWindow_getElem? s hk ha.symm⟩

/-- Visited after the start address has joined it. -/
theorem visits_markVisited_of_exec {s t : State} {i : Instr} (hf : s.fetchDecode = .ok i)
    (ht : exec i s = .next t) (e : Event) (a : Nat) :
    ((t.emit e).markVisited s.pc.toNat).visits a = (s.visits a || a == s.pc.toNat) := by
  obtain ⟨hvisited, _⟩ := exec_bookkeeping ht
  rw [State.visits_markVisited _ _ _ (State.pc_lt_of_fetchDecode_ok hf)]
  simp only [State.visits, State.emit_visited, hvisited]

/-- The step of an ordinary instruction: its effects stand, the start address joins Visited, and the new pc and
the step ceiling decide the status and Steps (44_engine.md R148, R149). -/
theorem step_of_ordinary {s t : State} {i : Instr} (hr : s.Ready) (hf : s.fetchDecode = .ok i)
    (ht : exec i s = .next t) (hu : i ≠ .unassigned) (hh : i ≠ .hlt) :
    ∃ u, step s = .next u ∧
      (if s.visits t.pc.toNat = true ∨ t.pc = s.pc then u.status = .loopDetected ∧ u.steps = s.steps
       else u.steps = s.steps + 1 ∧
        u.status = if s.cfg.stepLimit ≤ s.steps + 1 then .stepLimitReached else .running) ∧
      u.pc = t.pc ∧ u.ac = t.ac ∧ u.flags = t.flags ∧ u.mem = t.mem ∧
      u.faultRecord = s.faultRecord ∧ u.cfg = s.cfg ∧
      ∀ a : Nat, u.visits a = (s.visits a || a == s.pc.toNat) := by
  obtain ⟨u, hstep, hend⟩ := hr.step_end
  obtain ⟨hstatus, hrecord, -, hsteps, -, hcfg⟩ := exec_sameEngine ht hu hh
  refine ⟨u, hstep, ?_⟩
  cases hend with
  | fetchFault hf' => cases hf.symm.trans hf'
  | illegal hf' => exact absurd (Except.ok.inj (hf.symm.trans hf')) hu
  | halted hf' => exact absurd (Except.ok.inj (hf.symm.trans hf')) hh
  | loop hf' ht' _ _ hv =>
    cases hf.symm.trans hf'
    cases ht.symm.trans ht'
    rw [if_pos hv]
    exact ⟨⟨rfl, hsteps⟩, rfl, rfl, rfl, rfl, hrecord, hcfg, visits_markVisited_of_exec hf ht _⟩
  | ceiling hf' ht' _ _ hv hpc hl =>
    cases hf.symm.trans hf'
    cases ht.symm.trans ht'
    rw [if_neg (by simp [hv, hpc]), if_pos hl]
    exact ⟨⟨congrArg (· + 1) hsteps, rfl⟩, rfl, rfl, rfl, rfl, hrecord, hcfg,
      visits_markVisited_of_exec hf ht _⟩
  | goesOn hf' ht' _ _ hv hpc hl =>
    cases hf.symm.trans hf'
    cases ht.symm.trans ht'
    rw [if_neg (by simp [hv, hpc]), if_neg (by omega)]
    exact ⟨⟨congrArg (· + 1) hsteps, hstatus.trans hr.1⟩, rfl, rfl, rfl, rfl, hrecord, hcfg,
      visits_markVisited_of_exec hf ht _⟩

/-- Settles O14: the first line of `step_of_ordinary`. -/
theorem revisitedAddressEndsTheRun : Obligations.RevisitedAddressEndsTheRun := by
  intro s t i hr hf hh hu ht hv
  obtain ⟨u, hstep, hend, hkeeps⟩ := step_of_ordinary hr hf ht hu hh
  rw [if_pos hv] at hend
  exact ⟨u, hstep, hend.1, hend.2, hkeeps⟩

/-- Settles O15: the second line of `step_of_ordinary`. -/
theorem stepCounterMeetsTheCeiling : Obligations.StepCounterMeetsTheCeiling := by
  intro s t i hr hf hh hu ht hv hpc
  obtain ⟨u, hstep, hend, hkeeps⟩ := step_of_ordinary hr hf ht hu hh
  rw [if_neg (by simp [hv, hpc])] at hend
  exact ⟨u, hstep, hend.1, hend.2, hkeeps⟩

/-- Settles O16: the branches of the fetch, then HLT and the illegal opcode, then `step_of_ordinary`. -/
theorem stopConditionsHaveAFixedPriority : Obligations.StopConditionsHaveAFixedPriority := by
  intro s hr
  cases hf : s.fetchDecode with
  | error k =>
    refine ⟨_, step_of_error hr hf, ?_⟩
    obtain ⟨hp, rfl⟩ | ⟨hp, rfl, hd⟩ := State.fetchDecode_error hf
    · rw [if_pos hp]
      rfl
    · rw [if_neg (by omega), hd]
      rfl
  | ok i =>
    obtain ⟨hp, -, -, rest, hd⟩ := State.fetchDecode_ok hf
    have hp' : ¬ 255 < s.pc.toNat := by omega
    simp only [if_neg hp', hd]
    by_cases hu : i = .unassigned
    · subst hu
      exact ⟨_, step_of_ok hr hf rfl, rfl⟩
    by_cases hh : i = .hlt
    · subst hh
      exact ⟨_, step_of_ok hr hf rfl, rfl⟩
    obtain ⟨t, ht⟩ := exec_total i s
    obtain ⟨u, hstep, hend, hpc, -⟩ := step_of_ordinary hr hf ht hu hh
    refine ⟨u, hstep, ?_⟩
    rw [hpc]
    split
    case h_1 e => cases e
    case h_2 e => cases e; exact absurd rfl hu
    case h_3 e => cases e; exact absurd rfl hh
    case h_4 =>
      split at hend
      case isTrue hv => rw [if_pos hv, hend.1]
      case isFalse hv => rw [if_neg hv, hend.2]

/-- Settles O17: HLT leaves the loop check and the step ceiling out. -/
theorem haltStepEndsTheRun : Obligations.HaltStepEndsTheRun := by
  intro s hr hf
  have hp := State.pc_lt_of_fetchDecode_ok hf
  exact ⟨_, step_of_ok hr hf rfl, rfl, State.seqNext_toNat s 1 (by omega), rfl, rfl, rfl, rfl, rfl, rfl, rfl⟩

end Sys2Proof.Machine

/-! # Faults, terminal states and what every step keeps (44_engine.md, 60_exceptions.md) -/

namespace Sys2Proof.Machine

/-- A Running step that ends in a fault did nothing but raise it (44_engine.md R142). -/
theorem step_eq_raise_of_faulted {s u : State} {k : Fault} (hs : s.status = .running) (h : step s = .next u)
    (hk : u.status = .faulted k) : u = s.raise k := by
  cases stepEnd_of_step hs h with
  | fetchFault | illegal => cases hk; rfl
  | halted hf ht => cases ht; cases hk
  | loop | ceiling => cases hk
  | goesOn hf ht hu hh =>
    obtain ⟨hstatus, -⟩ := exec_sameEngine ht hu hh
    cases (hs.symm.trans hstatus.symm).trans hk

/-- Settles O24: such a step is a `raise`. -/
theorem faultingStepChangesOnlyStatusAndRecord : Obligations.FaultingStepChangesOnlyStatusAndRecord :=
  fun _ _ _ hs h hk => step_eq_raise_of_faulted hs h hk

/-- Settles O23: the decoder answers the illegal opcode before it looks past the first byte. -/
theorem unknownOpcodeIsRaisedAtEveryAddress : Obligations.UnknownOpcodeIsRaisedAtEveryAddress := by
  intro s hr hp hnone
  have hd : decode s.cfg.opcodeMap s.fetchWindow = .ok (.unassigned, s.fetchWindow.tail) := by
    rw [State.fetchWindow_eq s hp, ← firstByte_opcodeOf_operandOf (s.memRead (s.pc.setWidth 8))]
    exact decode_firstByte_of_none _ _ _ _ (OpcodeMap.classOf_eq_none.mpr hnone)
  exact ⟨_, step_of_ok hr (State.fetchDecode_of_decode hp hd) rfl, rfl, rfl⟩

/-- Settles O25, by induction on the number of steps. -/
theorem terminalStatesAreFinal : Obligations.TerminalStatesAreFinal := by
  intro n s hs
  induction n with
  | zero => exact run_zero s
  | succ n ih => rw [run_succ n (step_of_terminal hs), ih]

/-- No step changes the configuration. -/
theorem step_cfg {s u : State} (h : step s = .next u) : u.cfg = s.cfg := by
  obtain ⟨_, rfl⟩ | ⟨hs, _, ⟨_, _, rfl⟩ | ⟨i, t, hf, ht, rfl⟩⟩ := step_cases h
  · rfl
  · rfl
  · obtain ⟨-, -, -, -, -, hcfg⟩ := retire_keeps hs (State.pc_lt_of_fetchDecode_ok hf) ht
    exact hcfg.trans (exec_cfg ht)

/-- Settles O33: an instruction leaves the configuration alone, and so does the end of the step. -/
theorem configurationNeverChanges : Obligations.ConfigurationNeverChanges :=
  ⟨fun _ _ _ h => exec_cfg h, fun _ _ h => step_cfg h⟩

/-- Settles O31: the other writers of flags clear V, and the rest of the step writes no flag. -/
theorem overflowIsSetByAddAndSubOnly : Obligations.OverflowIsSetByAddAndSubOnly := by
  intro s u h hu hs
  have hne : u.flags ≠ s.flags := fun e => by simp [e, hs] at hu
  obtain ⟨_, rfl⟩ | ⟨hrun, _, ⟨_, _, rfl⟩ | ⟨i, t, hf, ht, rfl⟩⟩ := step_cases h
  · exact absurd rfl hne
  · exact absurd rfl hne
  · obtain ⟨-, -, hflags, -⟩ := retire_keeps hrun (State.pc_lt_of_fetchDecode_ok hf) ht
    rw [hflags] at hu hne
    obtain ⟨-, hsame⟩ | ⟨-, -, -, hv | ⟨a, hi⟩⟩ := exec_ac_flags ht
    · exact absurd hsame hne
    · exact absurd (hu.symm.trans hv) (by decide)
    · obtain rfl | rfl := hi
      · exact ⟨a, .inl hf⟩
      · exact ⟨a, .inr hf⟩

/-- Settles O34: the end of the step keeps the memory STA wrote and the pc it left. -/
theorem storeIsSeenByTheNextFetch : Obligations.StoreIsSeenByTheNextFetch := by
  intro s u a k hr hf h hk hpc
  cases (step_of_ok hr hf rfl).symm.trans h
  obtain ⟨-, -, -, hmem, -⟩ := retire_keeps hr.1 (State.pc_lt_of_fetchDecode_ok hf) (i := .sta a) rfl
  rw [State.fetchWindow_getElem? _ hk (hpc.trans (dataAddr_toNat a).symm), State.memRead, hmem]
  exact congrArg some (State.memRead_memWrite_same s (dataAddr a) s.ac)

/-- Settles O47: a JMP is ordinary, so a step that lands on its own or a visited address ends in the loop
check. -/
theorem jmpLoadsThePc : Obligations.JmpLoadsThePc := by
  refine ⟨fun m x t rest hm => decode_firstByte m hm .jmp x (t :: rest),
    fun s t => ⟨_, rfl, targetPc_toNat t, rfl⟩,
    fun s hr hp hop => step_shortBranch_at_end (c := .jmp) hr hp (by simp) hop, fun s t hr hf hv => ?_⟩
  have hpc : (targetPc t).toNat = t.toNat := targetPc_toNat t
  have hv' : s.visits (targetPc t).toNat = true ∨ targetPc t = s.pc :=
    hpc.symm ▸ hv.imp_right fun e => BitVec.eq_of_toNat_eq (hpc.trans e)
  obtain ⟨u, hstep, hstatus, -, hu, -⟩ := revisitedAddressEndsTheRun s _ (.jmp t) hr hf nofun nofun rfl hv'
  exact ⟨u, hstep, hstatus, hu ▸ hpc⟩

/-- Every fault kind is one of the three (60_exceptions.md R170). -/
theorem Fault.mem_all (k : Fault) : k ∈ [Fault.pcOutOfRange, .truncatedBranch, .unknownBranchOpcode] := by
  cases k <;> decide

/-- Settles O20: the loop check, the step ceiling and a step that goes on mark the start address; the other three
ends leave Visited alone. -/
theorem visitedGrowsByTheStartAddressOnly : Obligations.VisitedGrowsByTheStartAddressOnly := by
  refine ⟨fun s a => BitVec.getLsbD_zero, fun s u a h => ?_⟩
  by_cases hs : s.status = .running
  · cases stepEnd_of_step hs h with
    | @fetchFault k hf =>
      rw [decide_eq_false fun ⟨_, _, _, hk⟩ => hk k k.mem_all rfl, Bool.or_false]
      rfl
    | illegal hf =>
      rw [decide_eq_false fun ⟨_, _, _, hk⟩ => hk _ (Fault.mem_all _) rfl, Bool.or_false]
      rfl
    | halted hf ht =>
      cases ht
      rw [decide_eq_false fun ⟨_, _, hh, _⟩ => hh rfl, Bool.or_false]
      rfl
    | loop hf ht => exact (visits_markVisited_of_exec hf ht _ a).trans (by simp [hs, Bool.beq_eq_decide_eq])
    | ceiling hf ht => exact (visits_markVisited_of_exec hf ht _ a).trans (by simp [hs, Bool.beq_eq_decide_eq])
    | goesOn hf ht hu hh =>
      obtain ⟨hstatus, -⟩ := exec_sameEngine ht hu hh
      exact (visits_markVisited_of_exec hf ht _ a).trans (by simp [hs, hstatus, Bool.beq_eq_decide_eq])
  · rw [step_of_terminal hs] at h
    cases h
    simp [hs]

end Sys2Proof.Machine

/-! # The EVENT of a step (44_engine.md R161) -/

namespace Sys2Proof.Machine

/-- The first byte of a fetch. -/
theorem State.memRead_pc (s : State) (hp : s.pc.toNat ≤ 255) :
    s.memRead (s.pc.setWidth 8) = Memory.read s.mem s.pc.toNat := by
  rw [State.memRead, BitVec.toNat_setWidth, Nat.mod_eq_of_lt (by omega)]

/-- The byte of the window at an offset is the one memory holds there. -/
theorem State.read_of_fetchWindow {s : State} {k : Nat} {x : Byte} (hk : k < 3) (hp : s.pc.toNat + k < 256)
    (hx : s.fetchWindow[k]? = some x) : x = Memory.read s.mem (s.pc.toNat + k) := by
  have haddr : (BitVec.ofNat 8 (s.pc.toNat + k)).toNat = s.pc.toNat + k :=
    (BitVec.toNat_ofNat _ _).trans (Nat.mod_eq_of_lt hp)
  rw [State.fetchWindow_getElem? s hk haddr.symm, State.memRead, haddr] at hx
  exact (Option.some.inj hx).symm

/-- The operand an EVENT shows is the one its class shows, read from memory. -/
theorem eventOperand_of_fetchDecode {s : State} {i : Instr} (hf : s.fetchDecode = .ok i) (hu : i ≠ .unassigned) :
    ∃ c, s.cfg.opcodeMap.classOf (opcodeOf (Memory.read s.mem s.pc.toNat)) = some c ∧
      eventOperand (Memory.read s.mem s.pc.toNat) i = s.operandShown c := by
  obtain ⟨hp, -, hend, rest, hd⟩ := State.fetchDecode_ok hf
  obtain ⟨bytes, hw⟩ : ∃ bytes, s.fetchWindow = Memory.read s.mem s.pc.toNat :: bytes :=
    ⟨_, (s.fetchWindow_eq hp).trans (by rw [State.memRead_pc s hp])⟩
  rw [hw] at hd
  cases hc : s.cfg.opcodeMap.classOf (opcodeOf (Memory.read s.mem s.pc.toNat)) with
  | none =>
    simp only [decode, hc] at hd
    cases hd
    exact absurd rfl hu
  | some c =>
    refine ⟨c, rfl, ?_⟩
    cases c <;> simp only [decode, hc] at hd
    case jmp | jn | jz | jp =>
      obtain ⟨t, rfl, rfl⟩ := decodeShortBranch_ok hd
      rw [Instr.length] at hend
      exact congrArg _ (State.read_of_fetchWindow (k := 1) (by decide) (by omega) (by rw [hw]; rfl))
    case extJmp =>
      obtain ⟨sub, t, rfl, rfl⟩ := decodeExtendedBranch_ok hd
      rw [decodeExtended_length] at hend
      rw [eventOperand_decodeExtended,
        State.read_of_fetchWindow (s := s) (k := 1) (x := sub) (by decide) (by omega) (by rw [hw]; rfl),
        State.read_of_fetchWindow (s := s) (k := 2) (x := t) (by decide) (by omega) (by rw [hw]; rfl)]
      rfl
    case shift =>
      cases hd
      exact eventOperand_decodeShift _ _
    all_goals
      cases hd
      rfl

/-- A Running step that does not end Faulted ran an instruction and appended its EVENT. -/
theorem step_events_of_not_faulted {s u : State} (hs : s.status = .running) (h : step s = .next u)
    (hu : ∀ k, u.status ≠ .faulted k) :
    ∃ i t, s.fetchDecode = .ok i ∧ i ≠ .unassigned ∧ u.events = s.events ++ [stepEvent s i t] ∧
      t.pc = u.pc ∧ t.ac = u.ac ∧ t.flags = u.flags := by
  obtain ⟨hns, _⟩ | ⟨_, _, ⟨k, _, rfl⟩ | ⟨i, t, hf, ht, rfl⟩⟩ := step_cases h
  · exact absurd hs hns
  · exact absurd rfl (hu k)
  · have hp := State.pc_lt_of_fetchDecode_ok hf
    have hi : i ≠ .unassigned := by
      rintro rfl
      cases ht
      exact hu _ rfl
    obtain ⟨hpc, hac, hflags, -⟩ := retire_keeps hs hp ht
    have hevents := retire_events hs hp ht
    rw [if_neg hi] at hevents
    exact ⟨i, t, hf, hi, hevents, hpc.symm, hac.symm, hflags.symm⟩

/-- The opcode nibble as a number (30_encoding.md R61). -/
theorem opcodeOf_toNat (b : Byte) : (opcodeOf b).toNat = b.toNat / 16 := by
  revert b; decide

/-- Settles O18: a step that is not Faulted appends `stepEvent`; a Faulted one is a raise and a terminal state
stays. -/
theorem executedStepEmitsOneEvent : Obligations.ExecutedStepEmitsOneEvent := by
  intro s u h
  refine ⟨fun hs hu => ?executed, fun hend => ?silent⟩
  case executed =>
    obtain ⟨i, t, hf, hi, hevents, hpc, hac, hflags⟩ := step_events_of_not_faulted hs h hu
    have hp : s.pc.toNat ≤ 255 := (State.fetchDecode_ok hf).1
    have hraw := s.memRead_pc hp
    obtain ⟨c, hc, hoperand⟩ := eventOperand_of_fetchDecode hf hi
    refine ⟨stepEvent s i t, hevents, ?_, hraw, opcodeOf_toNat _, ⟨c, ?_, ?_⟩, hpc, hac, ?_⟩
    · rw [stepEvent, BitVec.toNat_setWidth, Nat.mod_eq_of_lt (by omega)]
    · rw [stepEvent, hraw, hc]
    · rw [stepEvent, hraw, hoperand]
    · rw [← hflags]
      exact Flags.vector_toNat t.flags
  case silent =>
    by_cases hs : s.status = .running
    · obtain ⟨k, hk⟩ := hend.resolve_left (not_not.mpr hs)
      rw [step_eq_raise_of_faulted hs h hk, State.raise_events]
    · rw [step_of_terminal hs] at h
      cases h
      rfl

/-- The operand of a class, with its fields as truncations. -/
theorem State.operandShown_eq_ite (s : State) (c : OpClass) :
    s.operandShown c =
      if c = .shift then .selector ((Memory.read s.mem s.pc.toNat).setWidth 2)
      else if c ∈ [OpClass.jmp, .jn, .jz, .jp] then .target (Memory.read s.mem (s.pc.toNat + 1))
      else if c = .extJmp then
        .subcodeTarget (Memory.read s.mem (s.pc.toNat + 1)) (Memory.read s.mem (s.pc.toNat + 2))
      else .nibble ((Memory.read s.mem s.pc.toNat).setWidth 4) := by
  rw [BitVec.setWidth_eq_extractLsb' (by decide), BitVec.setWidth_eq_extractLsb' (by decide)]
  cases c <;> rfl

/-- Settles O19: the record is O18's, and the class is the one its opcode nibble has. -/
theorem eventShowsTheOperandOfTheClass : Obligations.EventShowsTheOperandOfTheClass := by
  intro s u h hs hu
  obtain ⟨i, t, hf, hi, hevents, -⟩ := step_events_of_not_faulted hs h hu
  obtain ⟨c, hc, hoperand⟩ := eventOperand_of_fetchDecode hf hi
  refine ⟨stepEvent s i t, c, hevents, OpcodeMap.nibble_of_classOf hc, ?_⟩
  rw [← State.operandShown_eq_ite, ← hoperand, ← s.memRead_pc (State.fetchDecode_ok hf).1]
  rfl

end Sys2Proof.Machine

/-! # The invariant and the bound on a run (10_state.md, 44_engine.md R152) -/

namespace Sys2Proof.Machine

/-- Visited as a set of addresses, and its size. -/
theorem State.visitedCount_eq_card (s : State) :
    s.visitedCount = ((Finset.range 256).filter (fun a => s.visits a = true)).card := by
  rw [State.visitedCount, ← List.toFinset_card_of_nodup (List.nodup_range.filter _), List.toFinset_filter,
    List.toFinset_range]

/-- An address that joins Visited makes it one larger. -/
theorem State.visitedCount_markVisited {s : State} {p : Nat} (hp : p < 256) (hv : s.visits p = false) :
    (s.markVisited p).visitedCount = s.visitedCount + 1 := by
  have hmem : p ∉ (Finset.range 256).filter (fun a => s.visits a = true) := by simp [hv]
  rw [State.visitedCount_eq_card, State.visitedCount_eq_card, ← Finset.card_insert_of_notMem hmem]
  congr 1
  ext a
  simp only [Finset.mem_filter, Finset.mem_insert, Finset.mem_range, State.visits_markVisited s p a hp,
    Bool.or_eq_true, beq_iff_eq]
  by_cases ha : a = p
  · simp [ha, hp]
  · simp [ha]

/-- While an address is outside Visited, it holds at most 255. -/
theorem State.visitedCount_lt {s : State} {p : Nat} (hp : p < 256) (hv : s.visits p = false) :
    s.visitedCount < 256 := by
  have h : s.visitedCount < (List.range 256).length :=
    List.length_filter_lt_length_iff_exists.mpr ⟨p, List.mem_range.mpr hp, by simp [hv]⟩
  rwa [List.length_range] at h

/-- Visited depends on the field alone. -/
theorem State.visitedCount_congr {s t : State} (h : t.visited = s.visited) : t.visitedCount = s.visitedCount := by
  have hvisits : t.visits = s.visits := funext fun a => by rw [State.visits, State.visits, h]
  rw [State.visitedCount, State.visitedCount, hvisits]

/-- RESET under an admitted configuration meets the invariant. -/
theorem State.resetWith_inv {c : Config} (h : c.wf) : (State.resetWith c).Inv where
  cfg := h
  mem := h.2.2
  pc := Nat.zero_le _
  pcWrap := fun _ => Nat.zero_le _
  flags := .inl ⟨rfl, rfl, rfl⟩
  record := rfl
  run := fun _ => ⟨BitVec.getLsbD_zero, h.1,
    (by decide : State.reset.steps = State.reset.visitedCount).trans (State.visitedCount_congr rfl)⟩
  steps := Nat.zero_le _

/-- Settles O10: both states are `resetWith` of an admitted configuration. -/
theorem invariantHoldsAtReset : Obligations.InvariantHoldsAtReset :=
  ⟨State.resetWith_inv (by decide), fun _ h => State.resetWith_inv h⟩

/-- Settles O9: RESET writes constants, and a cell that is not listed holds 0. -/
theorem resetClearsTheBookkeeping : Obligations.ResetClearsTheBookkeeping :=
  ⟨fun _ _ => ⟨BitVec.getLsbD_zero, rfl, rfl, rfl, rfl⟩, fun _ => Memory.read_nil _⟩

/-- A fault raised in a Running state keeps the invariant. -/
theorem State.Inv.raise {s : State} (h : s.Inv) (k : Fault) : (s.raise k).Inv where
  cfg := h.cfg
  mem := h.mem
  pc := h.pc
  pcWrap := h.pcWrap
  flags := h.flags
  record := rfl
  run := nofun
  steps := h.steps

/-- While Running at an address, Steps counts fewer than all addresses, since this one is not visited yet. -/
theorem State.Inv.steps_lt {s : State} (h : s.Inv) (hs : s.status = .running) (hp : s.pc.toNat < 256) :
    s.steps < 256 := by
  obtain ⟨hv, -, hsteps⟩ := h.run hs
  exact hsteps ▸ State.visitedCount_lt hp hv

/-- After an instruction the pc is in range, by the range of the bytes it was fetched from. -/
theorem exec_pc_le {i : Instr} {s t : State} (hf : s.fetchDecode = .ok i) (ht : exec i s = .next t) :
    t.pc.toNat ≤ 256 ∧ (s.cfg.pcWrap = true → t.pc.toNat ≤ 255) := by
  obtain ⟨hp, -, hend, -⟩ := State.fetchDecode_ok hf
  obtain ⟨-, e⟩ | ⟨-, e | ⟨b, e⟩⟩ := exec_pc ht
  · rw [e]
    exact ⟨by omega, fun _ => hp⟩
  · rw [e, State.seqNext_toNat s _ (by omega), State.seqNat]
    split <;> simp [*]
    omega
  · rw [e, targetPc_toNat]
    omega

/-- N and Z tell of ac after every instruction if they did before it. -/
theorem exec_flagsTellAc {i : Instr} {s t : State} (ht : exec i s = .next t) (h : s.FlagsTellAc) :
    t.FlagsTellAc := by
  obtain ⟨hac, hflags⟩ | ⟨-, hn, hz, -⟩ := exec_ac_flags ht
  · rwa [State.FlagsTellAc, hac, hflags]
  · exact .inr ⟨hn, hz⟩

/-- The part of `State.Inv` that does not speak of the engine: the end of a step reads and writes none of it. -/
structure State.ProcessorInv (s : State) : Prop where
  cfg    : s.cfg.wf
  mem    : s.mem.wf
  pc     : s.pc.toNat ≤ 256
  pcWrap : s.cfg.pcWrap = true → s.pc.toNat ≤ 255
  flags  : s.FlagsTellAc

/-- An instruction that was fetched keeps the processor's part of the invariant. -/
theorem State.Inv.processorInv_of_exec {i : Instr} {s t : State} (h : s.Inv) (hf : s.fetchDecode = .ok i)
    (ht : exec i s = .next t) : t.ProcessorInv := by
  have hcfg := exec_cfg ht
  obtain ⟨hpc, hwrap⟩ := exec_pc_le hf ht
  exact ⟨hcfg ▸ h.cfg, exec_mem_wf ht h.mem, hpc, hcfg ▸ hwrap, exec_flagsTellAc ht h.flags⟩

/-- A state that has not faulted has an empty fault record where the record was empty. -/
theorem State.recordFits_of_none {s : State} (hr : s.faultRecord = none) (hs : ∀ k, s.status ≠ .faulted k) :
    s.RecordFits := by
  unfold State.RecordFits
  split
  · exact absurd ‹_› (hs _)
  all_goals exact hr

/-- An ordinary instruction that lands outside Visited, with the ceiling ahead, leaves a run that goes on. -/
theorem State.Inv.runFits_of_goesOn {i : Instr} {s t : State} (h : s.Inv) (hs : s.status = .running)
    (hf : s.fetchDecode = .ok i) (ht : exec i s = .next t) (e : Event) (hv : s.visits t.pc.toNat = false)
    (hpc : t.pc ≠ s.pc) (hl : s.steps + 1 < s.cfg.stepLimit) :
    ((t.emit e).markVisited s.pc.toNat).countStep.RunFits := by
  intro _
  obtain ⟨hvisited, hsteps, -, hcfg⟩ := exec_bookkeeping ht
  obtain ⟨hcur, -, hcount⟩ := h.run hs
  have hcur' : (t.emit e).visits s.pc.toNat = false := by simpa only [State.visits, State.emit_visited, hvisited]
  have hne : t.pc.toNat ≠ s.pc.toNat := fun e => hpc (BitVec.eq_of_toNat_eq e)
  refine ⟨(visits_markVisited_of_exec hf ht e _).trans (by simp [hv, hne]), ?_, ?_⟩
  · simpa only [State.countStep_steps, State.countStep_cfg, State.markVisited_steps, State.markVisited_cfg,
      State.emit_steps, State.emit_cfg, hsteps, hcfg]
  · calc t.steps + 1 = s.visitedCount + 1 := by rw [hsteps, hcount]
      _ = (t.emit e).visitedCount + 1 := by rw [State.visitedCount_congr (s := s) (t := t.emit e) hvisited]
      _ = ((t.emit e).markVisited s.pc.toNat).visitedCount :=
        (State.visitedCount_markVisited (State.pc_lt_of_fetchDecode_ok hf) hcur').symm

/-- Settles O11: a fault keeps everything but status and record; else the instruction keeps the processor's part,
and each way to end the step the engine's part. -/
theorem stepKeepsTheInvariant : Obligations.StepKeepsTheInvariant := by
  intro s u hinv h
  by_cases hs : s.status = .running
  · have hnone : s.faultRecord = none := by simpa [State.RecordFits, hs] using hinv.record
    cases stepEnd_of_step hs h with
    | fetchFault | illegal => exact hinv.raise _
    | halted hf ht =>
      obtain ⟨hcfg, hmem, hpc, hwrap, hflags⟩ := hinv.processorInv_of_exec hf ht
      cases ht
      exact ⟨hcfg, hmem, hpc, hwrap, hflags, hnone, nofun, hinv.steps⟩
    | loop hf ht hu hh =>
      obtain ⟨hcfg, hmem, hpc, hwrap, hflags⟩ := hinv.processorInv_of_exec hf ht
      obtain ⟨-, hrecord, -, hsteps, -⟩ := exec_sameEngine ht hu hh
      exact ⟨hcfg, hmem, hpc, hwrap, hflags, hrecord.trans hnone, nofun, hsteps.trans_le hinv.steps⟩
    | ceiling hf ht hu hh =>
      obtain ⟨hcfg, hmem, hpc, hwrap, hflags⟩ := hinv.processorInv_of_exec hf ht
      obtain ⟨-, hrecord, -, hsteps, -⟩ := exec_sameEngine ht hu hh
      have hlt := hinv.steps_lt hs (State.pc_lt_of_fetchDecode_ok hf)
      exact ⟨hcfg, hmem, hpc, hwrap, hflags, hrecord.trans hnone, nofun, hsteps.trans_lt hlt⟩
    | goesOn hf ht hu hh hv hne hl =>
      obtain ⟨hcfg, hmem, hpc, hwrap, hflags⟩ := hinv.processorInv_of_exec hf ht
      obtain ⟨hstatus, hrecord, -, hsteps, -⟩ := exec_sameEngine ht hu hh
      have hlt := hinv.steps_lt hs (State.pc_lt_of_fetchDecode_ok hf)
      refine ⟨hcfg, hmem, hpc, hwrap, hflags, ?_, hinv.runFits_of_goesOn hs hf ht _ hv hne hl,
        hsteps.trans_lt hlt⟩
      exact State.recordFits_of_none (hrecord.trans hnone) fun k hk => by cases (hstatus.trans hs).symm.trans hk
  · rw [step_of_terminal hs] at h
    cases h
    exact hinv

/-- Settles O27: the ceiling is met by a count of executed addresses, which is at most 256. -/
theorem stepLimitIsReachedOnlyBelow257 : Obligations.StepLimitIsReachedOnlyBelow257 := by
  intro s u hinv hs h hu
  cases stepEnd_of_step hs h with
  | fetchFault | illegal | loop => cases hu
  | halted hf ht => cases ht; cases hu
  | ceiling hf _ _ _ _ _ hl => exact hl.trans (hinv.steps_lt hs (State.pc_lt_of_fetchDecode_ok hf))
  | goesOn hf ht hne hh =>
    obtain ⟨hstatus, -⟩ := exec_sameEngine ht hne hh
    cases (hs.symm.trans hstatus.symm).trans hu

/-- How many instructions a run may still execute: none once it has ended, else one for each step not counted
yet (44_engine.md R152). -/
def State.stepsLeft (s : State) : Nat := if s.status = .running then 256 - s.steps else 0

/-- A step after which the run goes on started Running and was counted. -/
theorem step_of_still_running {s u : State} (h : step s = .next u) (hu : u.status = .running) :
    s.status = .running ∧ u.steps = s.steps + 1 := by
  by_cases hs : s.status = .running
  · refine ⟨hs, ?_⟩
    cases stepEnd_of_step hs h with
    | fetchFault | illegal | loop | ceiling => cases hu
    | halted hf ht => cases ht; cases hu
    | goesOn hf ht =>
      obtain ⟨-, hsteps, -⟩ := exec_bookkeeping ht
      exact congrArg (· + 1) hsteps
  · rw [step_of_terminal hs] at h
    cases h
    exact absurd hu hs

/-- Under the invariant a step spends one of the steps left for the EVENT it may append. -/
theorem step_stepsLeft {s u : State} (hinv : s.Inv) (h : step s = .next u) :
    u.events.length + u.stepsLeft ≤ s.events.length + s.stepsLeft := by
  have hleft : u.stepsLeft = if u.status = .running then 256 - u.steps else 0 := rfl
  have hcount := step_of_still_running h
  obtain ⟨_, rfl⟩ | ⟨hs, _, ⟨_, _, rfl⟩ | ⟨i, t, hf, ht, rfl⟩⟩ := step_cases h
  · exact le_rfl
  · exact Nat.add_le_add_left (hleft.trans (if_neg nofun) ▸ Nat.zero_le _) _
  · have hp := State.pc_lt_of_fetchDecode_ok hf
    have hlt := hinv.steps_lt hs hp
    have hleft' : s.stepsLeft = 256 - s.steps := if_pos hs
    have hevents : (retire s i t).events.length ≤ s.events.length + 1 := by
      rw [retire_events hs hp ht]
      split <;> simp
    by_cases hu : (retire s i t).status = .running
    · rw [if_pos hu, (hcount hu).2] at hleft
      omega
    · rw [if_neg hu] at hleft
      omega

/-- Any number of steps from a state that meets the invariant: they all answer, keep the invariant and the bound
on EVENTs, and a run that still goes on has counted every one of them. -/
theorem run_of_inv (n : Nat) {s : State} (hinv : s.Inv) :
    ∃ u, Sys2Proof.core.run n s = .next u ∧ u.Inv ∧
      u.events.length + u.stepsLeft ≤ s.events.length + s.stepsLeft ∧
      (u.status = .running → s.status = .running ∧ u.steps = s.steps + n) := by
  induction n generalizing s with
  | zero => exact ⟨s, run_zero s, hinv, le_rfl, fun hs => ⟨hs, rfl⟩⟩
  | succ n ih =>
    obtain ⟨v, hv⟩ := step_total hinv.cfg
    obtain ⟨u, hu, huinv, hle, hcount⟩ := ih (stepKeepsTheInvariant s v hinv hv)
    refine ⟨u, (run_succ n hv).trans hu, huinv, hle.trans (step_stepsLeft hinv hv), fun hrun => ?_⟩
    obtain ⟨hvrun, hsteps⟩ := hcount hrun
    obtain ⟨hs, hvsteps⟩ := step_of_still_running hv hvrun
    exact ⟨hs, by omega⟩

/-- Settles O26: a run that still went on after 257 steps would have counted 257, past the invariant's 256; and
there were at most 256 steps left at its start. -/
theorem everyRunEndsWithin257Steps : Obligations.EveryRunEndsWithin257Steps := by
  intro s hinv
  obtain ⟨u, hu, huinv, hle, hcount⟩ := run_of_inv 257 hinv
  refine ⟨u, hu, fun hrun => ?_, huinv, ?_⟩
  · have hsteps := huinv.steps
    obtain ⟨-, h257⟩ := hcount hrun
    omega
  · have hleft : s.stepsLeft ≤ 256 := by
      unfold State.stepsLeft
      split <;> omega
    omega

end Sys2Proof.Machine
